-- ==== Sys2Proof/Word.lean ====
section
/-! DEFINITION. The plain types of the spec's notation (00_scope.md section 5): command words, symbols, bit strings. -/

namespace Sys2Proof

/-- A command word, CMDW = 16 bits (R50). -/
abbrev Word := BitVec 16

/-- A symbol at a port, SYMW = 8 bits (R56). -/
abbrev Symbol := BitVec 8

/-- An unsigned 32-bit value (`u32`, 00_scope.md section 5.1). -/
abbrev U32 := BitVec 32

/-- A finite sequence of bits; index 0 is the first bit (00_scope.md section 5.2). -/
abbrev BitString := List Bool

end Sys2Proof
end

