-- ==== Sys2Proof/Syntax.lean ====
section
/-! DEFINITION. The instructions: one constructor per row of spec/opcode_table.json (R61). -/

namespace Sys2Proof

/-- The padding policy, the PAD field (R58): PAD = 0 is `zp`, PAD = 1 is `drop`. -/
inductive PadPolicy where
  | zp
  | drop
deriving DecidableEq, Repr

/-- The trailer order, the ORD field (R58): ORD = 0 is `sum1 ++ sum2`, ORD = 1 is `sum2 ++ sum1`. -/
inductive TrailerOrder where
  | s1s2
  | s2s1
deriving DecidableEq, Repr

/-- The host commands (R51, R55, R61). ENC.UNSUP has three rows in the table, so three constructors (log 10).
WIDTH and ALG are plain numbers (R57); `Instr.wf` bounds them by what their row can carry (log 11). -/
inductive Instr where
  /-- CLR, `0x0000` (R130). -/
  | clr
  /-- PUSH sym, `0x1000 + sym` (R131). -/
  | push (sym : Symbol)
  /-- ENC.CRC32, `0x2000` (R133). -/
  | encCrc32
  /-- ENC.FLETCHER w, pad, ord, `0x2100 + 4*w + 2*pad + ord` (R134). -/
  | encFletcher (width : Nat) (pad : PadPolicy) (ord : TrailerOrder)
  /-- ENC.HAMMING, `0x2200` (R135). -/
  | encHamming
  /-- ENC.UNSUP with ALG = 3, `0x2300` (R136). -/
  | encUnsup3
  /-- ENC.UNSUP with ALG = 4 .. 7, `0x2000 + 256*alg` (R136). -/
  | encUnsup4 (alg : Nat)
  /-- ENC.UNSUP with ALG = 8 .. 15, `0x2000 + 256*alg` (R136). -/
  | encUnsup8 (alg : Nat)
deriving DecidableEq, Repr

end Sys2Proof
end

