-- ==== Sys2Proof/WellFormed.lean ====
section
/-! DEFINITION. Which instructions a command word can carry: the ranges of WIDTH and ALG (R55, R57, R61). -/

namespace Sys2Proof

/-- The operands fit the fields of the instruction's row. An illegal block width (5, say) is well formed:
its word exists and its meaning is the error BAD_WIDTH (R57). -/
def Instr.wf (i : Instr) : Bool :=
  match i with
  | .clr => true
  | .push _ => true
  | .encCrc32 => true
  | .encFletcher width _ _ => decide (width < 64)
  | .encHamming => true
  | .encUnsup3 => true
  | .encUnsup4 alg => decide (4 ≤ alg ∧ alg < 8)
  | .encUnsup8 alg => decide (8 ≤ alg ∧ alg < 16)

end Sys2Proof
end

