-- ==== Sys2Proof/Decode.lean ====
section
/-! DEFINITION. The command encoding (30_encoding.md): fields, decoder, encoder and the opcode table's rows. -/

namespace Sys2Proof

/-- OPC, bits 15:12 (R50). -/
def opcField (w : Word) : Nat := (w.extractLsb' 12 4).toNat
/-- ALG, bits 11:8 of the E-format (R50, R55). -/
def algField (w : Word) : Nat := (w.extractLsb' 8 4).toNat
/-- SYM, bits 7:0 of the P-format (R50, R56). -/
def symField (w : Word) : Symbol := w.extractLsb' 0 8
/-- WIDTH, bits 7:2 of the E-format, a plain unsigned number (R57). -/
def widthField (w : Word) : Nat := (w.extractLsb' 2 6).toNat
/-- PAD, bit 1 of the E-format (R58). -/
def padField (w : Word) : PadPolicy := if w.getLsbD 1 then .drop else .zp
/-- ORD, bit 0 of the E-format (R58). -/
def ordField (w : Word) : TrailerOrder := if w.getLsbD 0 then .s2s1 else .s1s2

/-- Why a word is no command. -/
inductive DecodeError where
  /-- OPC = 3 .. 15 is reserved (R59). -/
  | reservedOpcode (opc : Nat)
deriving DecidableEq, Repr

/-- The ENC command that ALG selects (R55); every ALG value is one (R55, R136). -/
def decodeEnc (w : Word) : Instr :=
  let alg := algField w
  if alg = 0 then .encCrc32
  else if alg = 1 then .encFletcher (widthField w) (padField w) (ordField w)
  else if alg = 2 then .encHamming
  else if alg = 3 then .encUnsup3
  else if alg < 8 then .encUnsup4 alg
  else .encUnsup8 alg

/-- Decoding by OPC, then for ENC by ALG (R51); total on all 65536 words. Ignored fields are not looked at (R60). -/
def decode (w : Word) : Except DecodeError Instr :=
  let opc := opcField w
  if opc = 0 then .ok .clr
  else if opc = 1 then .ok (.push (symField w))
  else if opc = 2 then .ok (decodeEnc w)
  else .error (.reservedOpcode opc)

/-- The bit that stands for a padding policy (R58). -/
def padBit (p : PadPolicy) : Nat :=
  match p with
  | .zp => 0
  | .drop => 1

/-- The bit that stands for a trailer order (R58). -/
def ordBit (o : TrailerOrder) : Nat :=
  match o with
  | .s1s2 => 0
  | .s2s1 => 1

/-- The canonical word of an instruction, every ignored bit 0 (R60, R61). -/
def encode (i : Instr) : Word :=
  match i with
  | .clr => 0x0000#16
  | .push sym => 0x1000#16 + sym.setWidth 16
  | .encCrc32 => 0x2000#16
  | .encFletcher width pad ord => BitVec.ofNat 16 (0x2100 + 4 * width + 2 * padBit pad + ordBit ord)
  | .encHamming => 0x2200#16
  | .encUnsup3 => 0x2300#16
  | .encUnsup4 alg => BitVec.ofNat 16 (0x2000 + 256 * alg)
  | .encUnsup8 alg => BitVec.ofNat 16 (0x2000 + 256 * alg)

/-- One row of the opcode map (R61): a word `w` selects it when `w &&& mask = pattern`. -/
structure OpcodeRow where
  mnemonic : String
  pattern : Word
  mask : Word
deriving DecidableEq, Repr

def OpcodeRow.selects (r : OpcodeRow) (w : Word) : Bool := w &&& r.mask == r.pattern

/-- The row of an instruction (R61). -/
def rowOf (i : Instr) : OpcodeRow :=
  match i with
  | .clr => ⟨"CLR", 0x0000#16, 0xF000#16⟩
  | .push _ => ⟨"PUSH", 0x1000#16, 0xF000#16⟩
  | .encCrc32 => ⟨"ENC.CRC32", 0x2000#16, 0xFF00#16⟩
  | .encFletcher _ _ _ => ⟨"ENC.FLETCHER", 0x2100#16, 0xFF00#16⟩
  | .encHamming => ⟨"ENC.HAMMING", 0x2200#16, 0xFF00#16⟩
  | .encUnsup3 => ⟨"ENC.UNSUP", 0x2300#16, 0xFF00#16⟩
  | .encUnsup4 _ => ⟨"ENC.UNSUP", 0x2400#16, 0xFC00#16⟩
  | .encUnsup8 _ => ⟨"ENC.UNSUP", 0x2800#16, 0xF800#16⟩

/-- The whole opcode map, in the table's order (R61). -/
def opcodeTable : List OpcodeRow :=
  [rowOf .clr, rowOf (.push 0), rowOf .encCrc32, rowOf (.encFletcher 0 .zp .s1s2), rowOf .encHamming,
    rowOf .encUnsup3, rowOf (.encUnsup4 4), rowOf (.encUnsup8 8)]

/-- The bits of an instruction's word that are not ignored (R60): OPC always, SYM in PUSH, ALG in every ENC, and the
whole word in ENC.FLETCHER. -/
def significantMask (i : Instr) : Word :=
  match i with
  | .clr => 0xF000#16
  | .push _ => 0xF0FF#16
  | .encFletcher _ _ _ => 0xFFFF#16
  | .encCrc32 => 0xFF00#16
  | .encHamming => 0xFF00#16
  | .encUnsup3 => 0xFF00#16
  | .encUnsup4 _ => 0xFF00#16
  | .encUnsup8 _ => 0xFF00#16

/-- The instruction the decoder reads from the table's numbering of an instruction's bits. The command word is one
indivisible unit with no byte order (R38), so bit k of `w` is bit k of the word; a length above 16 bits is no command
(R50; log 19). -/
def decodeTableWord (nbits w : Nat) : Option Instr :=
  if nbits ≤ 16 then
    match decode (BitVec.ofNat 16 (w % 2 ^ nbits)) with
    | .ok i => some i
    | .error _ => none
  else none

end Sys2Proof
end

