-- ==== Sys2Proof/Config.lean ====
section
/-! DEFINITION. The open parameters of the spec (92_eei_decisions.md, "Open parameters the model takes as arguments").
There is no free value: the spec leaves no result of a command undefined. -/

namespace Sys2Proof

/-- What one instance of the block fixes: the capacity of IBUF (R7, R11, D6; `none` is unbounded) and the (PAD, ORD)
pair that each of D0's two named Fletcher variants stands for (R62, R107, D14). -/
structure Config where
  cap : Option Nat
  padzero : PadPolicy × TrailerOrder
  droppartial : PadPolicy × TrailerOrder
deriving DecidableEq, Repr

/-- The defaults of the spec's table: CAP unbounded, `fletcher-padzero` = (0, 0), `fletcher-droppartial` = (1, 1). -/
def Config.specDefault : Config where
  cap := none
  padzero := (.zp, .s1s2)
  droppartial := (.drop, .s2s1)

end Sys2Proof
end

