-- ==== Sys2Proof/Machine/State.lean ====
section
/-! DEFINITION. The state of the machine (10_state.md) as plain data, its reset value, and the reasons a step can stop. -/

namespace Sys2Proof.Machine

/-- The two kinds of error of D0 (R156). -/
inductive ErrorKind where
  | invalidInput
  | unsupportedScheme
deriving DecidableEq, Repr

/-- The four causes of an error (R156). -/
inductive ErrorCause where
  | emptyInput
  | nonbinarySymbol
  | badWidth
  | unknownAlgorithm
deriving DecidableEq, Repr

/-- What `raise <kind>(<cause>)` carries (R158). An error is recorded in STATUS; it does not stop the machine. -/
structure EceError where
  kind : ErrorKind
  cause : ErrorCause
deriving DecidableEq, Repr

/-- Reasons to stop with a fault. There is none: every error of the spec is recorded in STATUS and the next command
executes normally (R158, R160), so no step of this machine faults (log 12). Safe. -/
inductive Fault
deriving DecidableEq, Repr

/-- Reasons to refuse a step: the behaviours the spec tells a model to refuse (93_implementation_defined.md, U1 to U4;
log 6). -/
inductive Refusal where
  /-- Raised by `exec` for an instruction without a meaning (none is left). Safe. -/
  | notModelled (mnemonic : String)
  /-- Raised when the host issues a word with OPC = 3 .. 15 (R59, U1). Safe. -/
  | reservedOpcode (opc : Nat)
  /-- Raised by PUSH when ILEN = CAP (R131, U2). Safe. -/
  | inputBufferFull
  /-- Raised by BufRead(b, i) with b > 4 or i at or beyond the buffer's length (R33, U3). Safe. -/
  | bufReadUndefined (b i : Nat)
  /-- Raised by RegRead(0) and by RegRead(n) with n > 7 (R12, U4). Safe. -/
  | regReadUndefined (n : Nat)
deriving DecidableEq, Repr

/-- What the host may do, one action at a time (R191). -/
inductive HostAction where
  /-- `Issue(w)`: write the command word `w` to CMD (R13). -/
  | issue (w : Word)
  /-- `RegRead(n)` (R12). -/
  | regRead (n : Nat)
  /-- `BufRead(b, i)` (R33). -/
  | bufRead (b i : Nat)
  /-- Assert reset (R180). -/
  | reset
deriving DecidableEq, Repr

/-- What a read returned to the host, with the read it answers (log 2). -/
inductive Reply where
  | reg (n : Nat) (value : Nat)
  | symbol (b i : Nat) (value : Symbol)
deriving DecidableEq, Repr

/-- The buffer space (R30): IBUF holds symbols as pushed (R11), the four result buffers hold bits (R17). A buffer is a
list, element `i` at index `i`, with no gaps (R31; log 9). -/
structure Memory where
  ibuf : List Symbol
  orig : BitString
  padded : BitString
  trailer : BitString
  codeword : BitString
deriving DecidableEq, Repr

/-- All five buffers empty (R23, R130). -/
def Memory.empty : Memory := ⟨[], [], [], [], []⟩

/-- `ILEN <= CAP` (R11), for a capacity that may be unbounded (D6). -/
def Memory.wf (cap : Option Nat) (m : Memory) : Bool :=
  match cap with
  | none => true
  | some c => decide (m.ibuf.length ≤ c)

/-- The whole machine. `mem`, `status` and `padcnt` are the complete host-visible state of ECE (R10). `config` holds the
open parameters (log 4, log 15); `stream` and `replies` are the host's side: actions not yet performed, the next one
first, and what its reads have returned, oldest first (log 1, log 2). -/
structure State where
  config : Config
  mem : Memory
  padcnt : BitVec 5
  status : BitVec 8
  stream : List HostAction
  replies : List Reply
deriving DecidableEq, Repr

/-- The machine right after reset (R23, R180), with the default parameters and no action of the host waiting. -/
def State.reset : State where
  config := Config.specDefault
  mem := Memory.empty
  padcnt := 0
  status := 0x00
  stream := []
  replies := []

/-- The complete host-visible state of ECE (R10), apart from the parameters and the host's own side. -/
structure Visible where
  mem : Memory
  padcnt : BitVec 5
  status : BitVec 8
deriving DecidableEq, Repr

def State.visible (s : State) : Visible := ⟨s.mem, s.padcnt, s.status⟩

end Sys2Proof.Machine
end

