-- ==== Sys2Proof/Machine/Flags.lean ====
section
/-! DEFINITION. STATUS: its fields, its codes and the values it is given (R14, R156). -/

namespace Sys2Proof.Machine

/-- ERR, bits 2:1 (R14, R156). -/
def errorKindCode (k : ErrorKind) : BitVec 2 :=
  match k with
  | .invalidInput => 1#2
  | .unsupportedScheme => 2#2

/-- ECAUSE, bits 5:3 (R14, R156). -/
def errorCauseCode (c : ErrorCause) : BitVec 3 :=
  match c with
  | .emptyInput => 1#3
  | .nonbinarySymbol => 2#3
  | .badWidth => 3#3
  | .unknownAlgorithm => 4#3

/-- STATUS from its fields; bits 7:6 are hardwired 0 (R14). -/
def statusWord (done : Bool) (err : BitVec 2) (ecause : BitVec 3) : BitVec 8 :=
  0#2 ++ ecause ++ err ++ BitVec.ofBool done

/-- STATUS.DONE, bit 0 (R14). -/
def statusDone (v : BitVec 8) : Bool := v.getLsbD 0
/-- STATUS.ERR, bits 2:1 (R14). -/
def statusErr (v : BitVec 8) : BitVec 2 := v.extractLsb' 1 2
/-- STATUS.ECAUSE, bits 5:3 (R14). -/
def statusEcause (v : BitVec 8) : BitVec 3 := v.extractLsb' 3 3

/-- STATUS after CLR and reset (R130, R180). -/
def statusIdle : BitVec 8 := statusWord false 0#2 0#3
/-- STATUS after an ENC that completed with a result (R132 step 3). -/
def statusResult : BitVec 8 := statusWord true 0#2 0#3
/-- STATUS after error entry (R158). -/
def statusOfError (e : EceError) : BitVec 8 := statusWord true (errorKindCode e.kind) (errorCauseCode e.cause)

/-- `InvalidInputError(EMPTY_INPUT)` (R156). -/
def errEmptyInput : EceError := ⟨.invalidInput, .emptyInput⟩
/-- `InvalidInputError(NONBINARY_SYMBOL)` (R156). -/
def errNonbinarySymbol : EceError := ⟨.invalidInput, .nonbinarySymbol⟩
/-- `InvalidInputError(BAD_WIDTH)` (R156). -/
def errBadWidth : EceError := ⟨.invalidInput, .badWidth⟩
/-- `UnsupportedSchemeError(UNKNOWN_ALGORITHM)` (R156). -/
def errUnknownAlgorithm : EceError := ⟨.unsupportedScheme, .unknownAlgorithm⟩

end Sys2Proof.Machine
end

