-- ==== Sys2Proof/Machine/Operands.lean ====
section
/-! DEFINITION. The operands of the commands: symbols and their bits (R56), the block width (R57), and the input string
that every ENC takes from IBUF (R132 step 1). -/

namespace Sys2Proof.Machine

/-- `SYM0`, the code of the character '0' (R56). -/
def sym0 : Symbol := 0x30
/-- `SYM1`, the code of the character '1' (R56). -/
def sym1 : Symbol := 0x31

/-- `isbit(c)`: `c` is a binary symbol (R56). -/
def isBitSymbol (c : Symbol) : Bool := c == sym0 || c == sym1

/-- `bit(c) = c[0]` for a binary symbol (R56). -/
def bitOfSymbol (c : Symbol) : Bool := c.getLsbD 0

/-- `sym(b) = 0x30 + b` (R56). -/
def symbolOfBit (b : Bool) : Symbol := if b then sym1 else sym0

/-- The legal block widths, exactly 4, 8, 16 and 32 (R57, R100). -/
def legalWidth (w : Nat) : Bool := w == 4 || w == 8 || w == 16 || w == 32

/-- Step 1 of ENC (R132): the input string of the command, or the first of the two input errors that applies
(R157, priorities 1 and 2). -/
def inputBits (s : List Symbol) : Except EceError BitString :=
  if s.isEmpty then .error errEmptyInput
  else if s.all isBitSymbol then .ok (s.map bitOfSymbol)
  else .error errNonbinarySymbol

end Sys2Proof.Machine
end

