-- ==== Sys2Proof/Machine/Ops.lean ====
section
/-! DEFINITION. The shared operations over buffers and registers: clearing, appending, committing a result, error entry
(R158), the host's reads (R12, R33), and reset (R180). -/

namespace Sys2Proof.Machine

/-- `len(IBUF) < CAP` (R131). -/
def hasRoom (s : State) : Bool :=
  match s.config.cap with
  | none => true
  | some c => decide (s.mem.ibuf.length < c)

/-- `IBUF <- IBUF ++ [c]` (R131). -/
def appendSymbol (c : Symbol) (s : State) : State :=
  { s with mem := { s.mem with ibuf := s.mem.ibuf ++ [c] } }

/-- The effect of CLR (R130). It is also how an error indication is left (R160): there is no return command. -/
def clearAll (s : State) : State :=
  { s with mem := Memory.empty, padcnt := 0, status := statusIdle }

/-- What an engine returns: `(padded, trailer, codeword, k)` (R91, R105). -/
structure EncodeResult where
  padded : BitString
  trailer : BitString
  codeword : BitString
  padCount : Nat
deriving DecidableEq, Repr

/-- Step 3 of ENC, all at once (R132): the result record, PADCNT and STATUS. IBUF is not written. PADCNT has 5 bits,
enough for every pad count 0 .. 31 (R16; log 8). -/
def commitResult (bits : BitString) (r : EncodeResult) (s : State) : State :=
  { s with
    mem := { s.mem with orig := bits, padded := r.padded, trailer := r.trailer, codeword := r.codeword }
    padcnt := BitVec.ofNat 5 r.padCount
    status := statusResult }

/-- Error entry (R158): the four result buffers are emptied, PADCNT is zeroed, DONE, ERR and ECAUSE are set. IBUF is
unchanged, and the machine is ready for the next command. -/
def errorEntry (e : EceError) (s : State) : State :=
  { s with
    mem := { s.mem with orig := [], padded := [], trailer := [], codeword := [] }
    padcnt := 0
    status := statusOfError e }

/-- `RegRead(n)` (R12): the registers 1 .. 7. Register 0 is write-only and no register has a number above 7, so those
reads are refused (U4). The length registers are the buffers' lengths (R15, R17; log 7). -/
def regRead (s : State) (n : Nat) : Except Refusal Nat :=
  match n with
  | 1 => .ok s.status.toNat
  | 2 => .ok s.mem.ibuf.length
  | 3 => .ok s.padcnt.toNat
  | 4 => .ok s.mem.orig.length
  | 5 => .ok s.mem.padded.length
  | 6 => .ok s.mem.trailer.length
  | 7 => .ok s.mem.codeword.length
  | _ => .error (.regReadUndefined n)

/-- The elements of buffer `b` as the symbols the read port shows (R30, R33); `none` for a buffer that does not exist. -/
def bufferSymbols (m : Memory) (b : Nat) : Option (List Symbol) :=
  match b with
  | 0 => some m.ibuf
  | 1 => some (m.orig.map symbolOfBit)
  | 2 => some (m.padded.map symbolOfBit)
  | 3 => some (m.trailer.map symbolOfBit)
  | 4 => some (m.codeword.map symbolOfBit)
  | _ => none

/-- `BufRead(b, i)` (R33): one symbol; refused beyond the buffer's length and for b > 4 (U3). -/
def bufRead (m : Memory) (b i : Nat) : Except Refusal Symbol :=
  match bufferSymbols m b with
  | none => .error (.bufReadUndefined b i)
  | some l =>
    match l[i]? with
    | none => .error (.bufReadUndefined b i)
    | some c => .ok c

/-- Asserting reset (R180, R23): the block goes to the reset state. The parameters are the instance's, and the host's
own side is not part of the block (log 13). -/
def assertReset (s : State) : State :=
  { s with mem := Memory.empty, padcnt := 0, status := 0x00 }

/-- A read's value goes to the host (R33, R12; log 2). -/
def reply (r : Reply) (s : State) : State :=
  { s with replies := s.replies ++ [r] }

/-- The host's next action, and the state in which it is performed (R41, R170; log 1). -/
def takeAction (s : State) : Option (HostAction × State) :=
  match s.stream with
  | [] => none
  | a :: rest => some (a, { s with stream := rest })

/-- The host puts one more action before those that wait. -/
def presentAction (a : HostAction) (s : State) : State :=
  { s with stream := a :: s.stream }

end Sys2Proof.Machine
end

