-- ==== Sys2Proof/Machine/BitBlocker.lean ====
section
/-! DEFINITION. BitBlocker: padding, grouping, block values, rendering (40_bitblocker.md, R70 to R77). -/

namespace Sys2Proof.Machine

/-- `val(s)`, most significant bit first, as the BLK register forms it from the seed 0 (R73, R182). -/
def blockValue (s : BitString) : Nat :=
  s.foldl (fun blk b => 2 * blk + b.toNat) 0

/-- `render_w(v)`: bit `w - 1 - j` of `v` at index `j` (R74). -/
def render (w v : Nat) : BitString :=
  (List.range w).map fun j => v.testBit (w - 1 - j)

/-- `zeros(k)` (00_scope.md section 5.2). -/
def zeros (k : Nat) : BitString := List.replicate k false

/-- `seg(s, a, k)`, the k bits from index a on (00_scope.md section 5.2). -/
def seg (s : BitString) (a k : Nat) : BitString := (s.drop a).take k

/-- The zero-pad policy (R71). -/
def padZero (bits : BitString) (w : Nat) : BitString × Nat :=
  let m := bits.length
  let k := if m % w = 0 then 0 else w - m % w
  (bits ++ zeros k, k)

/-- The drop policy (R72). -/
def dropPartial (bits : BitString) (w : Nat) : BitString × Nat :=
  (bits.take (bits.length / w * w), 0)

/-- The two policies (R70). -/
def applyPolicy (policy : PadPolicy) (bits : BitString) (w : Nat) : BitString × Nat :=
  match policy with
  | .zp => padZero bits w
  | .drop => dropPartial bits w

/-- The block values of a string that is a whole number of blocks (R70, R76). -/
def blocksOf (p : BitString) (w : Nat) : List Nat :=
  (List.range (p.length / w)).map fun j => blockValue (seg p (j * w) w)

/-- What `toBlocks` returns (R70). -/
structure Blocks where
  blocks : List Nat
  paddedBits : BitString
  padCount : Nat
deriving DecidableEq, Repr

/-- `toBlocks(bits, w, policy)` (R70); the width check precedes all slicing (R75). -/
def toBlocks (bits : BitString) (w : Nat) (policy : PadPolicy) : Except EceError Blocks :=
  if legalWidth w then
    let p := applyPolicy policy bits w
    .ok ⟨blocksOf p.1 w, p.1, p.2⟩
  else .error errBadWidth

end Sys2Proof.Machine
end

