-- ==== Sys2Proof/Machine/Crc32.lean ====
section
/-! DEFINITION. CRC32Engine: the reduction table, the accumulator, the encoding procedure (41_crc32.md, R85 to R91). -/

namespace Sys2Proof.Machine

/-- The reflected generator polynomial (R7, R85). -/
def crcPoly : U32 := 0xEDB88320
/-- The accumulator's seed (R7, R87). -/
def crcSeed : U32 := 0xFFFFFFFF
/-- The final XOR (R7, R87). -/
def crcFinalXor : U32 := 0xFFFFFFFF

/-- One conditional shift-XOR step; the bit tested is the one the logical shift discards (R85, R88). -/
def crcShift (c : U32) : U32 :=
  if c.getLsbD 0 then (c >>> 1) ^^^ crcPoly else c >>> 1

/-- Eight steps (R85). -/
def crcShift8 (c : U32) : U32 :=
  (List.range 8).foldl (fun c _ => crcShift c) c

/-- `CRCTAB[n] = tabEntry(n)` (R85): the reduction table, a constant (R24, R181; log 18). -/
def crcTab (n : BitVec 8) : U32 := crcShift8 (n.setWidth 32)

/-- One byte through the accumulator (R87). -/
def crcStep (acc : U32) (byte : Nat) : U32 :=
  let idx := (acc ^^^ BitVec.ofNat 32 byte).setWidth 8
  (acc >>> 8) ^^^ crcTab idx

/-- `crc32(bytes)` (R87): ACC starts from its seed at every call (R20, R182). -/
def crc32 (bytes : List Nat) : U32 :=
  bytes.foldl crcStep crcSeed ^^^ crcFinalXor

/-- One byte in the bit-serial form (R90). -/
def crcSerialStep (acc : U32) (byte : BitVec 8) : U32 :=
  crcShift8 (acc ^^^ byte.setWidth 32)

/-- `encodeCRC32(bits)` (R91). The width is wired to 8, so the error of `toBlocks` cannot occur (R75). -/
def encodeCrc32 (bits : BitString) : Except EceError EncodeResult :=
  match toBlocks bits 8 .zp with
  | .error e => .error e
  | .ok b =>
    let trailer := render 32 (crc32 b.blocks).toNat
    .ok ⟨b.paddedBits, trailer, b.paddedBits ++ trailer, b.padCount⟩

end Sys2Proof.Machine
end

