-- ==== Sys2Proof/Machine/Fletcher.lean ====
section
/-! DEFINITION. FletcherEngine: modulus, running sums, trailer, encoding procedure (42_fletcher.md, R100 to R107). -/

namespace Sys2Proof.Machine

/-- `M = 2^w - 1` (R101). -/
def fletcherModulus (w : Nat) : Nat := 2 ^ w - 1

/-- The working registers SUM1 and SUM2 (R19). -/
structure FletcherSums where
  sum1 : Nat
  sum2 : Nat
deriving DecidableEq, Repr

/-- Both sums seeded at 0, at every call (R102, R182). -/
def fletcherSeed : FletcherSums := ⟨0, 0⟩

/-- One block: SUM1 first, then SUM2 with the new SUM1; the additions are exact (R102, R103). -/
def fletcherStep (M : Nat) (r : FletcherSums) (v : Nat) : FletcherSums :=
  let s1 := (r.sum1 + v) % M
  ⟨s1, (r.sum2 + s1) % M⟩

/-- `fletcherSums(blocks, w)` (R102). -/
def fletcherSums (blocks : List Nat) (w : Nat) : FletcherSums :=
  blocks.foldl (fletcherStep (fletcherModulus w)) fletcherSeed

/-- `fletcher(blocks, w, ord)` (R104). -/
def fletcherTrailer (blocks : List Nat) (w : Nat) (ord : TrailerOrder) : BitString :=
  let r := fletcherSums blocks w
  match ord with
  | .s1s2 => render w r.sum1 ++ render w r.sum2
  | .s2s1 => render w r.sum2 ++ render w r.sum1

/-- `encodeFletcher(bits, w, pad, ord)` (R105); an illegal width is BAD_WIDTH (R75, R100). -/
def encodeFletcher (w : Nat) (pad : PadPolicy) (ord : TrailerOrder) (bits : BitString) : Except EceError EncodeResult :=
  match toBlocks bits w pad with
  | .error e => .error e
  | .ok b =>
    let trailer := fletcherTrailer b.blocks w ord
    .ok ⟨b.paddedBits, trailer, b.paddedBits ++ trailer, b.padCount⟩

end Sys2Proof.Machine
end

