-- ==== Sys2Proof/Machine/Hamming.lean ====
section
/-! DEFINITION. HammingEngine: parity-bit count, placement, parity, encoding procedure (43_hamming.md, R115 to R121). -/

namespace Sys2Proof.Machine

/-- The search of R115 from `r` on, with a bound on the number of tries (log 14). -/
def hammingRFrom (fuel m r : Nat) : Nat :=
  match fuel with
  | 0 => r
  | f + 1 => if m + r + 1 ≤ 2 ^ r then r else hammingRFrom f m (r + 1)

/-- `hammingR(m)`: the first r with `m + r + 1 <= 2^r` (R115). The bound r = m + 1 always satisfies it. -/
def hammingR (m : Nat) : Nat := hammingRFrom (m + 1) m 0

/-- `pos & (pos - 1) = 0`: a parity position, for pos >= 1 (R116, R117). -/
def isPow2 (pos : Nat) : Bool := pos &&& (pos - 1) == 0

/-- The positions `1 .. n`, ascending. -/
def positions (n : Nat) : List Nat := List.range' 1 n

/-- The content of position `pos` (numbered from 1) of a codeword (R37). -/
def hcwBit (hcw : BitString) (pos : Nat) : Bool := hcw.getD (pos - 1) false

/-- The interleaver over the given positions: a parity position gets 0, any other the next data bit (R117). The data
never runs out for the positions of R119 (R116; log 14). -/
def placeFrom (poss : List Nat) (dataBits : BitString) : BitString :=
  match poss with
  | [] => []
  | pos :: rest =>
    if isPow2 pos then false :: placeFrom rest dataBits
    else dataBits.headD false :: placeFrom rest dataBits.tail

/-- `place(dataBits, n)` (R117). -/
def place (dataBits : BitString) (n : Nat) : BitString := placeFrom (positions n) dataBits

/-- The positions that parity index `i` covers within `1 .. n` (R118). -/
def covered (n i : Nat) : List Nat := (positions n).filter fun pos => pos &&& 2 ^ i != 0

/-- XOR of the current contents of the covered positions (R118). -/
def parityOf (hcw : BitString) (n i : Nat) : Bool :=
  (covered n i).foldl (fun x pos => x ^^ hcwBit hcw pos) false

/-- The parity bits, computed one after another for ascending `i` (R118). -/
def parity (hcw : BitString) (r n : Nat) : BitString :=
  (List.range r).foldl (fun h i => h.set (2 ^ i - 1) (parityOf h n i)) hcw

/-- The codeword of a non-empty string (R119): `n = m + r` positions, position 1 first. -/
def hammingCodeword (dataBits : BitString) : BitString :=
  let m := dataBits.length
  let r := hammingR m
  let n := m + r
  parity (place dataBits n) r n

/-- `hamming(dataBits)` (R119), with the engine's own check of the empty input (R120). -/
def hamming (dataBits : BitString) : Except EceError BitString :=
  if dataBits.isEmpty then .error errEmptyInput else .ok (hammingCodeword dataBits)

/-- The record of ENC.HAMMING (R135): PADDED is the input, TRAILER is empty, nothing is padded. -/
def encodeHamming (bits : BitString) : Except EceError EncodeResult :=
  match hamming bits with
  | .error e => .error e
  | .ok cw => .ok ⟨bits, [], cw, 0⟩

end Sys2Proof.Machine
end

