-- ==== Sys2Proof/Machine/Facade.lean ====
section
/-! DEFINITION. The encode commands: validation, dispatch, commit or error entry (44_facade_commands.md, R132 to R136). -/

namespace Sys2Proof.Machine

/-- ENC over an engine (R132): validate IBUF, run the engine, then commit its result or enter the error. -/
def encodeWith (engine : BitString → Except EceError EncodeResult) (s : State) : State :=
  match inputBits s.mem.ibuf with
  | .error e => errorEntry e s
  | .ok bits =>
    match engine bits with
    | .error e => errorEntry e s
    | .ok r => commitResult bits r s

/-- The "engine" of an unknown algorithm (R136). -/
def encodeUnsupported (_ : BitString) : Except EceError EncodeResult := .error errUnknownAlgorithm

/-- ENC.CRC32 (R133). -/
def execEncCrc32 (s : State) : Host.Outcome State Fault Refusal :=
  .next (encodeWith encodeCrc32 s)

/-- ENC.FLETCHER w, pad, ord (R134); the width check of R134 is the one `toBlocks` makes (R75). -/
def execEncFletcher (width : Nat) (pad : PadPolicy) (ord : TrailerOrder) (s : State) : Host.Outcome State Fault Refusal :=
  .next (encodeWith (encodeFletcher width pad ord) s)

/-- ENC.HAMMING (R135). -/
def execEncHamming (s : State) : Host.Outcome State Fault Refusal :=
  .next (encodeWith encodeHamming s)

/-- ENC.UNSUP, ALG = 3 (R136). -/
def execEncUnsup3 (s : State) : Host.Outcome State Fault Refusal :=
  .next (encodeWith encodeUnsupported s)

/-- ENC.UNSUP, ALG = 4 .. 7 (R136): the codes behave alike, so the number plays no part. -/
def execEncUnsup4 (_alg : Nat) (s : State) : Host.Outcome State Fault Refusal :=
  .next (encodeWith encodeUnsupported s)

/-- ENC.UNSUP, ALG = 8 .. 15 (R136): the codes behave alike, so the number plays no part. -/
def execEncUnsup8 (_alg : Nat) (s : State) : Host.Outcome State Fault Refusal :=
  .next (encodeWith encodeUnsupported s)

end Sys2Proof.Machine
end

