-- ==== Sys2Proof/Machine/Loading.lean ====
section
/-! DEFINITION. The loading commands CLR and PUSH (R130, R131). -/

namespace Sys2Proof.Machine

/-- CLR (R130): it cannot fail. -/
def execClr (s : State) : Host.Outcome State Fault Refusal :=
  .next (clearAll s)

/-- PUSH sym (R131): the symbol is appended unvalidated; with a finite capacity, a full IBUF is refused (U2). -/
def execPush (sym : Symbol) (s : State) : Host.Outcome State Fault Refusal :=
  if hasRoom s then .next (appendSymbol sym s) else .refused .inputBufferFull

end Sys2Proof.Machine
end

