-- ==== Sys2Proof/Machine/Dispatch.lean ====
section
/-! DEFINITION. One arm per constructor of Instr, each a call of its meaning. -/

namespace Sys2Proof.Machine

def exec (i : Instr) (s : State) : Host.Outcome State Fault Refusal :=
  match i with
  | .clr => Sys2Proof.Machine.execClr s
  | .push sym => Sys2Proof.Machine.execPush sym s
  | .encCrc32 => Sys2Proof.Machine.execEncCrc32 s
  | .encFletcher width pad ord => Sys2Proof.Machine.execEncFletcher width pad ord s
  | .encHamming => Sys2Proof.Machine.execEncHamming s
  | .encUnsup3 => Sys2Proof.Machine.execEncUnsup3 s
  | .encUnsup4 alg => Sys2Proof.Machine.execEncUnsup4 alg s
  | .encUnsup8 alg => Sys2Proof.Machine.execEncUnsup8 alg s

end Sys2Proof.Machine
end

