-- ==== Sys2Proof/Machine/HostPort.lean ====
section
/-! DEFINITION. The host's actions (R191): issuing a command word, the two reads, reset. -/

namespace Sys2Proof.Machine

/-- `Issue(w)` (R13): decode the word and execute the command to completion; a reserved word is refused (R59, U1). -/
def issueWord (w : Word) (s : State) : Host.Outcome State Fault Refusal :=
  match decode w with
  | .ok i => exec i s
  | .error (.reservedOpcode opc) => .refused (.reservedOpcode opc)

/-- `RegRead(n)` as the host's action (R12): its value goes to the host, nothing else changes. -/
def performRegRead (n : Nat) (s : State) : Host.Outcome State Fault Refusal :=
  match regRead s n with
  | .ok v => .next (reply (.reg n v) s)
  | .error r => .refused r

/-- `BufRead(b, i)` as the host's action (R33): its value goes to the host, nothing else changes. -/
def performBufRead (b i : Nat) (s : State) : Host.Outcome State Fault Refusal :=
  match bufRead s.mem b i with
  | .ok c => .next (reply (.symbol b i c) s)
  | .error r => .refused r

/-- One action of the host (R191). -/
def perform (a : HostAction) (s : State) : Host.Outcome State Fault Refusal :=
  match a with
  | .issue w => issueWord w s
  | .regRead n => performRegRead n s
  | .bufRead b i => performBufRead b i s
  | .reset => .next (assertReset s)

/-- One step of the machine: the host's next action, atomically (R40, R41, R170); with no action waiting, ECE waits and
nothing changes (R180, R191; log 3). -/
def stepHost (s : State) : Host.Outcome State Fault Refusal :=
  match takeAction s with
  | none => .next s
  | some (a, s') => perform a s'

/-- The command word given by the opcode table's numbering of its bits is put where the next step takes its action:
at the head of the host's stream (R38, R50; log 1). -/
def presentTableWord (s : State) (nbits w : Nat) : State :=
  presentAction (.issue (BitVec.ofNat 16 (w % 2 ^ nbits))) s

end Sys2Proof.Machine
end

