-- ==== Sys2Proof/Machine/Step.lean ====
section
/-! DEFINITION. The step function and the place of the next instruction. -/

namespace Sys2Proof.Machine

/-- One step (R170). -/
def step (s : State) : Host.Outcome State Fault Refusal := stepHost s

/-- `s` with the given command word issued next (log 1). -/
def State.withFetchWord (s : State) (nbits w : Nat) : State := presentTableWord s nbits w

end Sys2Proof.Machine
end

