-- ==== Sys2Proof/Machine/Assembler.lean ====
section
/-! DEFINITION. The assembler syntax and the pseudo-instructions (R62), which turn a program text into command words.
The named Fletcher variants take their (PAD, ORD) pair from Config (R107, D14; log 15). Conventions R62 does not state
are log 16 and log 20. -/

namespace Sys2Proof.Machine

/-- The lines of R62: the commands and the four pseudo-instructions. -/
inductive AsmLine where
  | empty
  | clr
  | push (sym : Symbol)
  | encCrc32
  | encFletcher (width : Nat) (pad : PadPolicy) (ord : TrailerOrder)
  | encHamming
  | encAlg (n : Nat)
  | load (syms : List Symbol)
  | append (syms : List Symbol)
  | fletcherPadzero (width : Nat)
  | fletcherDroppartial (width : Nat)
deriving DecidableEq, Repr

/-- `enc.alg n` for n = 3 .. 15 (R62, R61). -/
def unsupOf (n : Nat) : Instr :=
  if n = 3 then .encUnsup3 else if n < 8 then .encUnsup4 n else .encUnsup8 n

/-- The commands a line stands for (R62). -/
def expandLine (cfg : Config) (l : AsmLine) : List Instr :=
  match l with
  | .empty => []
  | .clr => [.clr]
  | .push sym => [.push sym]
  | .encCrc32 => [.encCrc32]
  | .encFletcher width pad ord => [.encFletcher width pad ord]
  | .encHamming => [.encHamming]
  | .encAlg n => [unsupOf n]
  | .load syms => .clr :: syms.map .push
  | .append syms => syms.map .push
  | .fletcherPadzero width => [.encFletcher width cfg.padzero.1 cfg.padzero.2]
  | .fletcherDroppartial width => [.encFletcher width cfg.droppartial.1 cfg.droppartial.2]

/-- The lexical elements of a line. -/
inductive AsmToken where
  | word (cs : List Char)
  | chr (c : Char)
  | str (cs : List Char)
  | comma
deriving DecidableEq, Repr

/-- Where the scanner stands: between elements, inside a word, inside a quoted character, inside a quoted string. -/
inductive LexMode where
  | between
  | inWord (acc : List Char)
  | inChr (c : Option Char)
  | inStr (acc : List Char)
deriving DecidableEq, Repr

/-- The apostrophe, which encloses a quoted character. -/
def chrQuote : Char := Char.ofNat 39
/-- The double quotation mark, which encloses a string. -/
def strQuote : Char := Char.ofNat 34

def isBlank (c : Char) : Bool := c == ' ' || c == Char.ofNat 9 || c == Char.ofNat 13

/-- The elements of a line up to its comment; words are read without regard to case (R62). -/
def lexLine (mode : LexMode) (line : List Char) : Option (List AsmToken) :=
  match line with
  | [] =>
    match mode with
    | .between => some []
    | .inWord acc => some [.word acc.reverse]
    | .inChr _ => none
    | .inStr _ => none
  | c :: cs =>
    match mode with
    | .between =>
      if c = ';' then some []
      else if isBlank c then lexLine .between cs
      else if c = ',' then (lexLine .between cs).map (.comma :: ·)
      else if c = chrQuote then lexLine (.inChr none) cs
      else if c = strQuote then lexLine (.inStr []) cs
      else lexLine (.inWord [c.toLower]) cs
    | .inWord acc =>
      if c = ';' then some [.word acc.reverse]
      else if isBlank c then (lexLine .between cs).map (.word acc.reverse :: ·)
      else if c = ',' then (lexLine .between cs).map fun ts => .word acc.reverse :: .comma :: ts
      else lexLine (.inWord (c.toLower :: acc)) cs
    | .inChr none => lexLine (.inChr (some c)) cs
    | .inChr (some x) => if c = chrQuote then (lexLine .between cs).map (.chr x :: ·) else none
    | .inStr acc =>
      if c = strQuote then (lexLine .between cs).map (.str acc.reverse :: ·)
      else lexLine (.inStr (c :: acc)) cs

/-- The value of a digit, `0` .. `9` and `a` .. `f`. -/
def digitValue (c : Char) : Option Nat :=
  let n := c.toNat
  if 48 ≤ n ∧ n ≤ 57 then some (n - 48)
  else if 97 ≤ n ∧ n ≤ 102 then some (n - 87)
  else none

/-- The digits of a number, most significant first, to a base. -/
def digitsValue (base acc : Nat) (cs : List Char) : Option Nat :=
  match cs with
  | [] => some acc
  | c :: rest =>
    match digitValue c with
    | none => none
    | some d => if d < base then digitsValue base (base * acc + d) rest else none

/-- A number: hexadecimal after `0x`, binary after `0b`, otherwise decimal (00_scope.md section 5.1). -/
def numberValue (cs : List Char) : Option Nat :=
  match cs with
  | [] => none
  | '0' :: 'x' :: c :: rest => digitsValue 16 0 (c :: rest)
  | '0' :: 'b' :: c :: rest => digitsValue 2 0 (c :: rest)
  | c :: rest => digitsValue 10 0 (c :: rest)

/-- The code of a quoted character, when it is a symbol (R56; log 20). -/
def symbolOfChar (c : Char) : Option Symbol :=
  if c.toNat < 256 then some (BitVec.ofNat 8 c.toNat) else none

/-- The operand of `push`: a quoted character or a number 0 .. 255 (R62). -/
def pushOperand (t : AsmToken) : Option Symbol :=
  match t with
  | .chr c => symbolOfChar c
  | .word cs =>
    match numberValue cs with
    | some n => if n < 256 then some (BitVec.ofNat 8 n) else none
    | none => none
  | .str _ => none
  | .comma => none

/-- A number operand within bounds (R62: a width 0 .. 63, an algorithm code 3 .. 15). -/
def boundedNumber (lo hi : Nat) (cs : List Char) : Option Nat :=
  match numberValue cs with
  | some n => if lo ≤ n ∧ n ≤ hi then some n else none
  | none => none

def padOperand (cs : List Char) : Option PadPolicy :=
  if cs = "zp".toList then some .zp else if cs = "drop".toList then some .drop else none

def ordOperand (cs : List Char) : Option TrailerOrder :=
  if cs = "s1s2".toList then some .s1s2 else if cs = "s2s1".toList then some .s2s1 else none

/-- The operands of `enc.fletcher` (R62). -/
def fletcherLine (w p o : List Char) : Option AsmLine :=
  match boundedNumber 0 63 w, padOperand p, ordOperand o with
  | some width, some pad, some ord => some (.encFletcher width pad ord)
  | _, _, _ => none

/-- A line from its mnemonic and operands (R62); `none` is a line R62 does not allow. -/
def lineOf (op : List Char) (args : List AsmToken) : Option AsmLine :=
  match args with
  | [] =>
    if op = "clr".toList then some .clr
    else if op = "enc.crc32".toList then some .encCrc32
    else if op = "enc.hamming".toList then some .encHamming
    else none
  | [.str cs] =>
    if op = "load".toList then (cs.mapM symbolOfChar).map .load
    else if op = "append".toList then (cs.mapM symbolOfChar).map .append
    else none
  | [t] =>
    if op = "push".toList then (pushOperand t).map .push
    else
      match t with
      | .word cs =>
        if op = "enc.alg".toList then (boundedNumber 3 15 cs).map .encAlg
        else if op = "enc.fletcher-padzero".toList then (boundedNumber 0 63 cs).map .fletcherPadzero
        else if op = "enc.fletcher-droppartial".toList then (boundedNumber 0 63 cs).map .fletcherDroppartial
        else none
      | _ => none
  | [.word w, .comma, .word p, .comma, .word o] =>
    if op = "enc.fletcher".toList then fletcherLine w p o else none
  | _ => none

/-- One line of a program text (R62). -/
def parseLine (line : List Char) : Option AsmLine :=
  match lexLine .between line with
  | some [] => some .empty
  | some (.word op :: args) => lineOf op args
  | _ => none

/-- The lines of a text. -/
def splitLines (acc : List Char) (text : List Char) : List (List Char) :=
  match text with
  | [] => [acc.reverse]
  | c :: cs => if c = Char.ofNat 10 then acc.reverse :: splitLines [] cs else splitLines (c :: acc) cs

/-- The commands of a program text, in order; `none` if some line is not allowed. -/
def assemble (cfg : Config) (text : String) : Option (List Instr) :=
  ((splitLines [] text.toList).mapM parseLine).map fun ls => ls.flatMap (expandLine cfg)

/-- The command words the host issues for a program text, canonical words in order (R60, R62). -/
def assembleWords (cfg : Config) (text : String) : Option (List Word) :=
  (assemble cfg text).map fun is => is.map encode

end Sys2Proof.Machine
end

