-- ==== Sys2Proof/Safety.lean ====
section
/-! DEFINITION. What a good state is, and the terms of the spec that the statements use. -/

namespace Sys2Proof

open Machine

/-- The engine an encode command runs over its input bits; `none` for CLR and PUSH (R132). -/
def engineOf (i : Instr) : Option (BitString → Except EceError EncodeResult) :=
  match i with
  | .clr => none
  | .push _ => none
  | .encCrc32 => some encodeCrc32
  | .encFletcher width pad ord => some (encodeFletcher width pad ord)
  | .encHamming => some encodeHamming
  | .encUnsup3 => some encodeUnsupported
  | .encUnsup4 _ => some encodeUnsupported
  | .encUnsup8 _ => some encodeUnsupported

/-- An encode command (R132). -/
def isEnc (i : Instr) : Bool := (engineOf i).isSome

/-- An ENC with an unknown algorithm code (R136). -/
def isUnsup (i : Instr) : Bool :=
  match i with
  | .clr => false
  | .push _ => false
  | .encCrc32 => false
  | .encFletcher _ _ _ => false
  | .encHamming => false
  | .encUnsup3 => true
  | .encUnsup4 _ => true
  | .encUnsup8 _ => true

/-- The host's next action issues the command `i` (R13). -/
def issues (s : State) (i : Instr) : Prop :=
  ∃ w rest, s.stream = .issue w :: rest ∧ decode w = .ok i

/-- IBUF holds a string an ENC accepts: not empty, every symbol '0' or '1' (R132 step 1). -/
def validInput (s : State) : Prop :=
  s.mem.ibuf ≠ [] ∧ ∀ c ∈ s.mem.ibuf, c = 0x30 ∨ c = 0x31

/-- The bits of IBUF as an ENC reads them (R132 step 1). -/
def inputString (s : State) : BitString := s.mem.ibuf.map (· == 0x31)

/-- A block width the spec allows (R57). -/
def widthAllowed (w : Nat) : Prop := w = 4 ∨ w = 8 ∨ w = 16 ∨ w = 32

/-- `e` is the one error that the encode command `i` reports in `s`, by the priority of R157; `none` if there is none. -/
def reports (i : Instr) (s : State) (e : Option (ErrorKind × ErrorCause)) : Prop :=
  (s.mem.ibuf = [] ∧ e = some (.invalidInput, .emptyInput)) ∨
  (s.mem.ibuf ≠ [] ∧ ¬ validInput s ∧ e = some (.invalidInput, .nonbinarySymbol)) ∨
  (validInput s ∧ isUnsup i = true ∧ e = some (.unsupportedScheme, .unknownAlgorithm)) ∨
  (validInput s ∧ (∃ w p o, i = .encFletcher w p o ∧ ¬ widthAllowed w) ∧ e = some (.invalidInput, .badWidth)) ∨
  (validInput s ∧ isUnsup i = false ∧ (∀ w p o, i = .encFletcher w p o → widthAllowed w) ∧ e = none)

/-- STATUS after an encode command that reports `e` (the table of R156; R132 step 3 for no error). -/
def statusAfter (e : Option (ErrorKind × ErrorCause)) : BitVec 8 :=
  match e with
  | none => 0x01
  | some (_, .emptyInput) => 0x0B
  | some (_, .nonbinarySymbol) => 0x13
  | some (_, .badWidth) => 0x1B
  | some (_, .unknownAlgorithm) => 0x25

/-- The state after error entry with the given STATUS (R158). -/
def afterError (s : State) (status : BitVec 8) : State :=
  { s with mem := ⟨s.mem.ibuf, [], [], [], []⟩, padcnt := 0, status := status }

/-- The state after a successful ENC over the input string with the given record and pad count (R132 step 3). -/
def afterResult (s : State) (padded trailer codeword : BitString) (k : Nat) : State :=
  { s with mem := ⟨s.mem.ibuf, inputString s, padded, trailer, codeword⟩, padcnt := BitVec.ofNat 5 k, status := 0x01 }

/-- The only values STATUS ever takes (R14). -/
def statusValues : List (BitVec 8) := [0x00, 0x01, 0x0B, 0x13, 0x1B, 0x25]

/-- The result record is empty and nothing was padded (R130, R158). -/
def recordEmpty (s : State) : Prop :=
  s.mem.orig = [] ∧ s.mem.padded = [] ∧ s.mem.trailer = [] ∧ s.mem.codeword = [] ∧ s.padcnt = 0

/-- The result record is what the encode command `i` makes of ORIG (R18, R186, R188). -/
def recordOf (i : Instr) (s : State) : Prop :=
  ∃ engine, engineOf i = some engine ∧ s.mem.orig ≠ [] ∧
    engine s.mem.orig = .ok ⟨s.mem.padded, s.mem.trailer, s.mem.codeword, s.padcnt.toNat⟩

/-- A good state: IBUF within its capacity (R11), STATUS one of its six values (R14), and a result record that is empty
unless STATUS says "result valid", when it is the encoding of ORIG under some command (R17, R18, R158, R188). -/
def Inv (s : State) : Prop :=
  s.mem.wf s.config.cap = true ∧
  s.status ∈ statusValues ∧
  (s.status ≠ 0x01 → recordEmpty s) ∧
  (s.status = 0x01 → ∃ i, i.wf = true ∧ recordOf i s)

/-- The codeword with the bit at position `p` (numbered from 1) flipped. -/
def flipPosition (c : BitString) (p : Nat) : BitString := c.set (p - 1) (!hcwBit c p)

end Sys2Proof
end

