-- ==== Sys2Proof/Certificates/Slice0/Obligations.lean ====
section
/-! DEFINITION. The statements for the provers. -/

open Sys2Proof Sys2Proof.Machine

/-! ## Encoding -/

/-- Decoding the canonical word of a well-formed command gives the command back (30_encoding.md sections 1 to 4). -/
def Obligations.DecodeEncodeRoundTrip : Prop :=
  ∀ i : Instr, i.wf = true → decode (encode i) = .ok i

/-- A command read from a word is well formed, and its canonical word is the word with the ignored bits cleared (R60, R61). -/
def Obligations.EncodeKeepsSignificantBits : Prop :=
  ∀ (w : Word) (i : Instr), decode w = .ok i → i.wf = true ∧ encode i = w &&& significantMask i

/-- The opcode map of R61: its rows, their disjointness, what they cover, the row of every decoded command, and the canonical
words. -/
def Obligations.OpcodeMapDisjointAndCovering : Prop :=
  opcodeTable =
    [⟨"CLR", 0x0000, 0xF000⟩, ⟨"PUSH", 0x1000, 0xF000⟩, ⟨"ENC.CRC32", 0x2000, 0xFF00⟩, ⟨"ENC.FLETCHER", 0x2100, 0xFF00⟩,
      ⟨"ENC.HAMMING", 0x2200, 0xFF00⟩, ⟨"ENC.UNSUP", 0x2300, 0xFF00⟩, ⟨"ENC.UNSUP", 0x2400, 0xFC00⟩,
      ⟨"ENC.UNSUP", 0x2800, 0xF800⟩] ∧
  opcodeTable.Pairwise (fun r q => ∀ w : Word, ¬ (w &&& r.mask = r.pattern ∧ w &&& q.mask = q.pattern)) ∧
  (∀ w : Word, (∃ r ∈ opcodeTable, w &&& r.mask = r.pattern) ↔ w.toNat < 0x3000) ∧
  (∀ (w : Word) (i : Instr), decode w = .ok i → rowOf i ∈ opcodeTable ∧ w &&& (rowOf i).mask = (rowOf i).pattern) ∧
  encode .clr = 0x0000 ∧
  (∀ c : Symbol, (encode (.push c)).toNat = 0x1000 + c.toNat) ∧
  encode .encCrc32 = 0x2000 ∧
  (∀ w p o, w < 64 → (encode (.encFletcher w p o)).toNat = 0x2100 + 4 * w + 2 * padBit p + ordBit o) ∧
  encode .encHamming = 0x2200 ∧
  encode .encUnsup3 = 0x2300 ∧
  (∀ a, 4 ≤ a → a < 8 → (encode (.encUnsup4 a)).toNat = 0x2000 + 256 * a) ∧
  (∀ a, 8 ≤ a → a < 16 → (encode (.encUnsup8 a)).toNat = 0x2000 + 256 * a)

/-- OPC 3 .. 15, that is every word from 0x3000 on, is refused when issued, and only those words are (R59). -/
def Obligations.ReservedWordsAreRefused : Prop :=
  ∀ (s : State) (w : Word) (rest : List HostAction), s.stream = .issue w :: rest →
    ((0x3000 ≤ w.toNat ↔ 3 ≤ opcField w) ∧
     (0x3000 ≤ w.toNat → step s = .refused (.reservedOpcode (opcField w))) ∧
     (w.toNat < 0x3000 → ∀ n, step s ≠ .refused (.reservedOpcode n)))

/-- Words that differ only in ignored bits are the same command with the same effect; canonical words have every ignored
bit 0; a WIDTH outside {4, 8, 16, 32} raises no error unless ALG = 1 (R60). -/
def Obligations.IgnoredFieldsHaveNoEffect : Prop :=
  (∀ w v : Word,
    ((opcField w = 0 ∧ opcField v = 0) ∨
     (opcField w = 1 ∧ opcField v = 1 ∧ symField w = symField v) ∨
     (opcField w = 2 ∧ opcField v = 2 ∧ algField w = algField v ∧ algField w ≠ 1)) →
    decode w = decode v ∧
    ∀ (s : State) (rest : List HostAction),
      step { s with stream := .issue w :: rest } = step { s with stream := .issue v :: rest }) ∧
  (∀ i : Instr, i.wf = true → encode i &&& significantMask i = encode i) ∧
  (∀ (w : Word) (s t : State) (rest : List HostAction),
    opcField w = 2 → algField w ≠ 1 → s.stream = .issue w :: rest → step s = .next t →
    statusEcause t.status ≠ 3)

/-- Words written out from the encodings of R50, R51, R55 and from 95_test_vectors.md 2.5 decode to the commands they
stand for. -/
def Obligations.DecoderReadsWrittenOutWords : Prop :=
  decode 0b0000101010111100 = .ok .clr ∧
  decode 0b0001111100110001 = .ok (.push 0x31) ∧
  decode 0b0010000000010100 = .ok .encCrc32 ∧
  decode 0b0010000100100011 = .ok (.encFletcher 8 .drop .s2s1) ∧
  decode 0b0010000110000001 = .ok (.encFletcher 32 .zp .s2s1) ∧
  decode 0b0010001000010111 = .ok .encHamming ∧
  decode 0b0010001100000000 = .ok .encUnsup3 ∧
  decode 0b0010011100000000 = .ok (.encUnsup4 7) ∧
  decode 0b0010111111111111 = .ok (.encUnsup8 15) ∧
  decode 0b0011000000000000 = .error (.reservedOpcode 3)

/-! ## The step and the host -/

/-- When the host's next action issues a word that decodes to `i`, the step is `exec i` with that action taken from the
stream; and `withFetchWord` puts a word there (R13, R40, R41; the stream is the model's, log 1). -/
def Obligations.StepRunsTheIssuedCommand : Prop :=
  (∀ (s : State) (w : Word) (rest : List HostAction) (i : Instr),
    s.stream = .issue w :: rest → decode w = .ok i → step s = exec i { s with stream := rest }) ∧
  (∀ (s : State) (w : Nat) (i : Instr), decodeTableWord 16 w = some i → step (s.withFetchWord 16 w) = exec i s)

/-- RegRead(n): the value of every readable register, which is 0 after reset; register 0 and numbers above 7 are refused,
and a read changes nothing of the block (10_state.md section 3, U4). -/
def Obligations.RegisterReadsReturnTheRegisters : Prop :=
  (∀ (s : State) (n v : Nat),
    (n, v) ∈ [(1, s.status.toNat), (2, s.mem.ibuf.length), (3, s.padcnt.toNat), (4, s.mem.orig.length),
        (5, s.mem.padded.length), (6, s.mem.trailer.length), (7, s.mem.codeword.length)] →
    regRead s n = .ok v) ∧
  (∀ n, 1 ≤ n → n ≤ 7 → regRead State.reset n = .ok 0) ∧
  (∀ (s : State) (n : Nat) (rest : List HostAction), s.stream = .regRead n :: rest →
    (n = 0 ∨ 7 < n → step s = .refused (.regReadUndefined n)) ∧
    (∀ t, step s = .next t → t.visible = s.visible))

/-- BufRead(b, i): the symbol for an index below the buffer's length, refused otherwise; no state changes and the same read
repeated gives the same symbol (R33). -/
def Obligations.BufferReadsReturnTheElements : Prop :=
  (∀ (m : Memory) (i : Nat) (h : i < m.ibuf.length), bufRead m 0 i = .ok m.ibuf[i]) ∧
  (∀ (m : Memory) (b i : Nat) (l : BitString),
    (b, l) ∈ [(1, m.orig), (2, m.padded), (3, m.trailer), (4, m.codeword)] →
    ∀ h : i < l.length, bufRead m b i = .ok (if l[i] then 0x31 else 0x30)) ∧
  (∀ (s : State) (b i : Nat) (rest : List HostAction), s.stream = .bufRead b i :: rest →
    (b = 0 → s.mem.ibuf.length ≤ i → step s = .refused (.bufReadUndefined b i)) ∧
    (∀ l, (b, l) ∈ [(1, s.mem.orig), (2, s.mem.padded), (3, s.mem.trailer), (4, s.mem.codeword)] → l.length ≤ i →
      step s = .refused (.bufReadUndefined b i)) ∧
    (4 < b → step s = .refused (.bufReadUndefined b i)) ∧
    (∀ t, step s = .next t → t.visible = s.visible ∧ bufRead t.mem b i = bufRead s.mem b i))

/-- A read that is defined goes on, and its value is added to the host's replies: the model's own form of what the host
receives (log 2); nothing else changes but the action taken from the stream. -/
def Obligations.ReadsAnswerTheHost : Prop :=
  (∀ (s : State) (n v : Nat) (rest : List HostAction), s.stream = .regRead n :: rest → regRead s n = .ok v →
    step s = .next { s with stream := rest, replies := s.replies ++ [.reg n v] }) ∧
  (∀ (s : State) (b i : Nat) (c : Symbol) (rest : List HostAction), s.stream = .bufRead b i :: rest →
    bufRead s.mem b i = .ok c →
    step s = .next { s with stream := rest, replies := s.replies ++ [.symbol b i c] })

/-- ILEN always reads the length of IBUF; it is 0 after reset and CLR and grows by one at each PUSH (R15). -/
def Obligations.IlenReadsTheInputLength : Prop :=
  (∀ s : State, regRead s 2 = .ok s.mem.ibuf.length) ∧
  regRead State.reset 2 = .ok 0 ∧
  (∀ s : State, ∃ t, exec .clr s = .next t ∧ regRead t 2 = .ok 0) ∧
  (∀ (s t : State) (c : Symbol), exec (.push c) s = .next t → regRead t 2 = .ok (s.mem.ibuf.length + 1))

/-- The state after reset (R23), reached from any state by the host's reset action, and equal to the state after CLR; the
reduction table holds the contents of R85. That reset takes its turn in the stream is the model's form of asserting it (log 13);
what it leaves of the host's side is in `ActionsAreTakenInIssueOrder`. -/
def Obligations.ResetReachesTheResetState : Prop :=
  State.reset.mem = ⟨[], [], [], [], []⟩ ∧ State.reset.padcnt = 0 ∧ State.reset.status = 0x00 ∧
  (∀ n, n = 2 ∨ 4 ≤ n ∧ n ≤ 7 → regRead State.reset n = .ok 0) ∧
  statusDone State.reset.status = false ∧ statusErr State.reset.status = 0 ∧ statusEcause State.reset.status = 0 ∧
  (∀ n : BitVec 8, crcTab n =
    crcShift (crcShift (crcShift (crcShift (crcShift (crcShift (crcShift (crcShift (n.setWidth 32))))))))) ∧
  (∀ (s : State) (rest : List HostAction), s.stream = .reset :: rest →
    ∃ t, step s = .next t ∧ t.visible = State.reset.visible) ∧
  (∀ s : State, ∃ t, exec .clr s = .next t ∧ t.visible = State.reset.visible)

/-- Nothing but a command or reset changes the block's state (70_reset_and_hazards.md section 1). -/
def Obligations.OnlyCommandsAndResetChangeTheBlock : Prop :=
  ∀ s t : State, step s = .next t → t.visible ≠ s.visible →
    (∃ i, issues s i) ∨ (∃ rest, s.stream = .reset :: rest)

/-- A step takes exactly the next action of the host, never changes the parameters, and adds to the replies only for a
read; with no action waiting it leaves the state as it is (20_memory.md section 5; the stream, the replies, the place of the
parameters, the waiting step and reset as an action that leaves the host's side are the model's, logs 1, 2, 3, 4, 13). -/
def Obligations.ActionsAreTakenInIssueOrder : Prop :=
  (∀ s : State, s.stream = [] → step s = .next s) ∧
  (∀ s t : State, step s = .next t →
    t.stream = s.stream.tail ∧ t.config = s.config ∧
    (t.replies = s.replies ∨
      (t.visible = s.visible ∧ (∃ r, t.replies = s.replies ++ [r]) ∧
        ((∃ n rest, s.stream = .regRead n :: rest) ∨ (∃ b i rest, s.stream = .bufRead b i :: rest)))))

/-! ## CLR and PUSH -/

/-- CLR (R130): its whole effect, from any word of its row; on a clear block it changes nothing; the state after it is the
reset state; no other command removes a symbol from IBUF. -/
def Obligations.ClrClearsEverything : Prop :=
  (∀ s : State, exec .clr s = .next { s with mem := ⟨[], [], [], [], []⟩, padcnt := 0, status := 0x00 }) ∧
  (∀ w : Word, opcField w = 0 → decode w = .ok .clr) ∧
  encode .clr = 0x0000 ∧
  (∀ s : State, s.visible = State.reset.visible → exec .clr s = .next s) ∧
  (∀ s t : State, exec .clr s = .next t → t.visible = State.reset.visible) ∧
  (∀ (i : Instr) (s t : State), i ≠ .clr → exec i s = .next t → s.mem.ibuf <+: t.mem.ibuf)

/-- PUSH (R131): appends any symbol unvalidated and changes nothing else; with a finite CAP, refused when IBUF is full. -/
def Obligations.PushAppendsOneSymbol : Prop :=
  (∀ (s : State) (c : Symbol), (∀ n, s.config.cap = some n → s.mem.ibuf.length < n) →
    exec (.push c) s = .next { s with mem := { s.mem with ibuf := s.mem.ibuf ++ [c] } }) ∧
  (∀ (s : State) (c : Symbol) (n : Nat), s.config.cap = some n → n ≤ s.mem.ibuf.length →
    exec (.push c) s = .refused .inputBufferFull) ∧
  (∀ w : Word, opcField w = 1 → decode w = .ok (.push (symField w))) ∧
  (∀ c : Symbol, (encode (.push c)).toNat = 0x1000 + c.toNat)

/-- PUSH reads back: every element of every buffer reads as before except the one appended, and STATUS, PADCNT and the
record's lengths keep their values (44_facade_commands.md section 1, 70_reset_and_hazards.md section 3). -/
def Obligations.PushFrame : Prop :=
  ∀ (s t : State) (c : Symbol), exec (.push c) s = .next t →
    bufRead t.mem 0 s.mem.ibuf.length = .ok c ∧
    (∀ b i, ¬ (b = 0 ∧ i = s.mem.ibuf.length) → bufRead t.mem b i = bufRead s.mem b i) ∧
    (∀ n, n ≠ 2 → regRead t n = regRead s n) ∧
    t.config = s.config ∧ t.stream = s.stream ∧ t.replies = s.replies

/-- A non-binary symbol stays in IBUF until CLR or reset, and no step but those removes or changes a symbol; meanwhile every
ENC fails with NONBINARY_SYMBOL (R187). -/
def Obligations.NonbinarySymbolPoisonsTheInput : Prop :=
  (∀ s t : State, step s = .next t → ¬ issues s .clr → (∀ rest, s.stream ≠ .reset :: rest) →
    s.mem.ibuf <+: t.mem.ibuf ∧
    ∀ c ∈ s.mem.ibuf, c ≠ 0x30 → c ≠ 0x31 → c ∈ t.mem.ibuf) ∧
  (∀ (i : Instr) (s : State), isEnc i = true → (∃ c ∈ s.mem.ibuf, c ≠ 0x30 ∧ c ≠ 0x31) →
    ∃ t, exec i s = .next t ∧ t.status = 0x13)

/-! ## The encode commands: validation, errors, frame -/

/-- Every ENC completes and reports exactly one outcome: the first error that applies in the order of R157, or success. -/
def Obligations.EncReportsTheFirstError : Prop :=
  ∀ (i : Instr) (s : State), isEnc i = true →
    ∃ e, reports i s e ∧ (∀ e', reports i s e' → e' = e) ∧
      ∃ t, exec i s = .next t ∧ t.status = statusAfter e

/-- Error entry (R158): with an error, the four result buffers are emptied, PADCNT is 0, DONE, ERR and ECAUSE are set,
and everything else, IBUF included, is unchanged. -/
def Obligations.ErrorEntryEmptiesTheRecord : Prop :=
  ∀ (i : Instr) (s : State) (kind : ErrorKind) (cause : ErrorCause), isEnc i = true → reports i s (some (kind, cause)) →
    exec i s = .next (afterError s (statusAfter (some (kind, cause)))) ∧
    statusDone (statusAfter (some (kind, cause))) = true ∧
    statusErr (statusAfter (some (kind, cause))) = (match kind with | .invalidInput => 1 | .unsupportedScheme => 2) ∧
    statusEcause (statusAfter (some (kind, cause))) =
      (match cause with | .emptyInput => 1 | .nonbinarySymbol => 2 | .badWidth => 3 | .unknownAlgorithm => 4)

/-- Errors come only from an ENC command, as a function of IBUF and the command word (R155). -/
def Obligations.ErrorsComeOnlyFromEnc : Prop :=
  (∀ s t : State, step s = .next t → t.status ≠ s.status → statusErr t.status ≠ 0 →
    ∃ i, issues s i ∧ isEnc i = true) ∧
  (∀ (i : Instr) (s t : State), isEnc i = false → exec i s = .next t → t.status = s.status ∨ t.status = 0x00) ∧
  (∀ (i : Instr) (s s' t t' : State), isEnc i = true → s.mem.ibuf = s'.mem.ibuf →
    exec i s = .next t → exec i s' = .next t' → t.status = t'.status)

/-- STATUS keeps its value until the next ENC, CLR or reset, and no command's behaviour depends on it: an error blocks
nothing (R160). -/
def Obligations.ErrorStateLastsAndBlocksNothing : Prop :=
  (∀ s t : State, step s = .next t → ¬ issues s .clr → (∀ i, isEnc i = true → ¬ issues s i) →
    (∀ rest, s.stream ≠ .reset :: rest) → t.status = s.status) ∧
  (∀ (i : Instr) (s : State), isEnc i = true → ∃ t, exec i s = .next t ∧ statusDone t.status = true ∧
    ∀ v : BitVec 8, exec i { s with status := v } = .next t) ∧
  (∀ s : State, ∃ t, exec .clr s = .next t ∧ t.status = 0x00 ∧
    ∀ v : BitVec 8, exec .clr { s with status := v } = .next t) ∧
  (∀ (c : Symbol) (s t : State) (v : BitVec 8), exec (.push c) s = .next t →
    exec (.push c) { s with status := v } = .next { t with status := v })

/-- Every ENC completes; the state it writes is a function of IBUF and the command, and the same ENC issued again leaves
exactly the state the first left (R137). -/
def Obligations.EncIsDeterministic : Prop :=
  ∀ (i : Instr) (s : State), isEnc i = true →
    ∃ t, exec i s = .next t ∧ exec i t = .next t ∧
      ∀ s' t', s'.mem.ibuf = s.mem.ibuf → exec i s' = .next t' → t'.visible = t.visible

/-- The frame of the encode commands: IBUF, read symbol by symbol, the parameters and the host's side are unchanged
(44_facade_commands.md section 2). -/
def Obligations.EncFrame : Prop :=
  ∀ (i : Instr) (s : State), isEnc i = true →
    ∃ t, exec i s = .next t ∧ (∀ k, bufRead t.mem 0 k = bufRead s.mem 0 k) ∧ regRead t 2 = regRead s 2 ∧
      t.config = s.config ∧ t.stream = s.stream ∧ t.replies = s.replies

/-- A successful ENC leaves ORIG equal to the input exactly as pushed, unpadded and untruncated, whatever the algorithm
(44_facade_commands.md section 3). -/
def Obligations.OrigIsTheInputAsPushed : Prop :=
  ∀ (i : Instr) (s t : State), isEnc i = true → exec i s = .next t → t.status = 0x01 →
    t.mem.orig.map symbolOfBit = s.mem.ibuf ∧ ∀ k, (bufRead t.mem 1 k).toOption = (bufRead t.mem 0 k).toOption

/-- The result record and PADCNT live until the next ENC, CLR or reset (R185). -/
def Obligations.ResultLivesUntilNextEncOrClr : Prop :=
  ∀ s t : State, step s = .next t → ¬ issues s .clr → (∀ i, isEnc i = true → ¬ issues s i) →
    (∀ rest, s.stream ≠ .reset :: rest) →
    t.mem.orig = s.mem.orig ∧ t.mem.padded = s.mem.padded ∧ t.mem.trailer = s.mem.trailer ∧
    t.mem.codeword = s.mem.codeword ∧ t.padcnt = s.padcnt

/-! ## The encode commands: results -/

/-- ENC.CRC32 (R133): on a valid input the whole next state; on an invalid one error entry. -/
def Obligations.EncCrc32Result : Prop :=
  ∀ s : State,
    (validInput s →
      ∀ k padded trailer, k = (8 - (inputString s).length % 8) % 8 → padded = inputString s ++ zeros k →
        trailer = render 32 (crc32 (blocksOf padded 8)).toNat →
        exec .encCrc32 s = .next (afterResult s padded trailer (padded ++ trailer) k) ∧
        trailer.length = 32 ∧ (padded ++ trailer).length = (s.mem.ibuf.length + 7) / 8 * 8 + 32) ∧
    (s.mem.ibuf = [] → exec .encCrc32 s = .next (afterError s 0x0B)) ∧
    (s.mem.ibuf ≠ [] → ¬ validInput s → exec .encCrc32 s = .next (afterError s 0x13))

/-- ENC.FLETCHER (R134): on a valid input and a legal width the whole next state, for every PAD and ORD; with an illegal
width BAD_WIDTH, after the input checks; with PAD = 1 and fewer than w bits the codeword is 2w zeros. -/
def Obligations.EncFletcherResult : Prop :=
  ∀ (s : State) (w : Nat) (p : PadPolicy) (o : TrailerOrder),
    (validInput s → widthAllowed w →
      ∀ m k padded trailer, m = s.mem.ibuf.length →
        k = (match p with | .zp => (w - m % w) % w | .drop => 0) →
        padded = (match p with | .zp => inputString s ++ zeros k | .drop => (inputString s).take (m / w * w)) →
        trailer = fletcherTrailer (blocksOf padded w) w o →
        exec (.encFletcher w p o) s = .next (afterResult s padded trailer (padded ++ trailer) k) ∧
        trailer.length = 2 * w ∧
        (padded ++ trailer).length = (match p with | .zp => (m + w - 1) / w * w + 2 * w | .drop => m / w * w + 2 * w) ∧
        (p = .drop → m < w → padded = [] ∧ trailer = zeros (2 * w))) ∧
    (s.mem.ibuf = [] → exec (.encFletcher w p o) s = .next (afterError s 0x0B)) ∧
    (s.mem.ibuf ≠ [] → ¬ validInput s → exec (.encFletcher w p o) s = .next (afterError s 0x13)) ∧
    (validInput s → ¬ widthAllowed w → exec (.encFletcher w p o) s = .next (afterError s 0x1B))

/-- ENC.HAMMING (R135): on a valid input PADDED is the input, TRAILER is empty, CODEWORD has m + r bits and PADCNT is 0; on an
invalid one error entry. -/
def Obligations.EncHammingResult : Prop :=
  ∀ s : State,
    (validInput s →
      exec .encHamming s = .next (afterResult s (inputString s) [] (hammingCodeword (inputString s)) 0) ∧
      (hammingCodeword (inputString s)).length = s.mem.ibuf.length + hammingR s.mem.ibuf.length ∧
      hammingCodeword (inputString s) ≠ inputString s ++ []) ∧
    (s.mem.ibuf = [] → exec .encHamming s = .next (afterError s 0x0B)) ∧
    (s.mem.ibuf ≠ [] → ¬ validInput s → exec .encHamming s = .next (afterError s 0x13))

/-- ENC.UNSUP, all three rows (R136): error entry with UNKNOWN_ALGORITHM on a valid input, with the input error otherwise;
the words 0x2300 .. 0x2FFF are these commands. -/
def Obligations.EncUnsupRaises : Prop :=
  (∀ (i : Instr) (s : State), isUnsup i = true →
    (validInput s → exec i s = .next (afterError s 0x25)) ∧
    (s.mem.ibuf = [] → exec i s = .next (afterError s 0x0B)) ∧
    (s.mem.ibuf ≠ [] → ¬ validInput s → exec i s = .next (afterError s 0x13))) ∧
  (∀ w : Word, 0x2300 ≤ w.toNat → w.toNat ≤ 0x2FFF → ∃ i, decode w = .ok i ∧ isUnsup i = true)

/-- CLEN after a successful ENC, for input length m >= 1 (R139). -/
def Obligations.CodewordLengths : Prop :=
  ∀ s : State, validInput s → ∀ m, m = s.mem.ibuf.length →
    (∃ t, exec .encCrc32 s = .next t ∧ t.mem.codeword.length = (m + 7) / 8 * 8 + 32) ∧
    (∀ w o, widthAllowed w →
      (∃ t, exec (.encFletcher w .zp o) s = .next t ∧ t.mem.codeword.length = (m + w - 1) / w * w + 2 * w) ∧
      (∃ t, exec (.encFletcher w .drop o) s = .next t ∧ t.mem.codeword.length = m / w * w + 2 * w)) ∧
    (∃ t r, exec .encHamming s = .next t ∧ t.mem.codeword.length = m + r ∧ m + r + 1 ≤ 2 ^ r ∧
      ∀ q, m + q + 1 ≤ 2 ^ q → m + r ≤ m + q)

/-- PADCNT (R16): the pad count of the last successful ENC with zero-padding, in 0 .. 31; 0 after the drop policy, Hamming,
an error, CLR and reset; and it affects no other state. -/
def Obligations.PadcntHoldsThePadCount : Prop :=
  (∀ s t : State, exec .encCrc32 s = .next t → t.status = 0x01 →
    t.padcnt.toNat = (8 - s.mem.ibuf.length % 8) % 8) ∧
  (∀ (s t : State) w o, exec (.encFletcher w .zp o) s = .next t → t.status = 0x01 →
    t.padcnt.toNat = (w - s.mem.ibuf.length % w) % w) ∧
  (∀ (s t : State) w o, exec (.encFletcher w .drop o) s = .next t → t.padcnt = 0) ∧
  (∀ s t : State, exec .encHamming s = .next t → t.padcnt = 0) ∧
  (∀ (i : Instr) (s t : State), isEnc i = true → exec i s = .next t → t.status ≠ 0x01 → t.padcnt = 0) ∧
  (∀ s t : State, exec .clr s = .next t → t.padcnt = 0) ∧
  State.reset.padcnt = 0 ∧
  (∀ (i : Instr) (s t t' : State) (v : BitVec 5), exec i s = .next t → exec i { s with padcnt := v } = .next t' →
    { t' with padcnt := t.padcnt } = t)

/-! ## BitBlocker -/

/-- The zero-pad policy (R71), and the two engines that use it. -/
def Obligations.ZeroPadPolicy : Prop :=
  ∀ (bits : BitString) (w : Nat), 0 < w →
    ∃ k, padZero bits w = (bits ++ zeros k, k) ∧ k = (w - bits.length % w) % w ∧ k ≤ w - 1 ∧
      (bits ++ zeros k).length = (bits.length + w - 1) / w * w ∧ (bits.length % w = 0 → padZero bits w = (bits, 0)) ∧
      (∀ r, encodeCrc32 bits = .ok r → (r.padded, r.padCount) = padZero bits 8) ∧
      (∀ r o, encodeFletcher w .zp o bits = .ok r → (r.padded, r.padCount) = padZero bits w)

/-- The drop policy (40_bitblocker.md section 2), and the engine that uses it. -/
def Obligations.DropPolicy : Prop :=
  ∀ (bits : BitString) (w : Nat), 0 < w →
    (dropPartial bits w).2 = 0 ∧ (dropPartial bits w).1 <+: bits ∧
    (dropPartial bits w).1.length = bits.length / w * w ∧
    (bits.length < w → dropPartial bits w = ([], 0)) ∧
    (bits.length % w = 0 → dropPartial bits w = (bits, 0) ∧ padZero bits w = (bits, 0)) ∧
    (∀ r o, encodeFletcher w .drop o bits = .ok r → (r.padded, r.padCount) = dropPartial bits w)

/-- The value of a block, most significant bit first (R73). -/
def Obligations.BlockValueIsMsbFirst : Prop :=
  (∀ s : BitString,
    blockValue s = ∑ j ∈ Finset.range s.length, (s.getD j false).toNat * 2 ^ (s.length - 1 - j) ∧
    blockValue s < 2 ^ s.length) ∧
  blockValue [] = 0

/-- Rendering is most significant bit first and inverse to the block value (40_bitblocker.md section 3). -/
def Obligations.RenderInvertsBlockValue : Prop :=
  (∀ w v : Nat, (render w v).length = w ∧ ∀ j, j < w → (render w v)[j]? = some (v.testBit (w - 1 - j))) ∧
  (∀ w v : Nat, v < 2 ^ w → blockValue (render w v) = v) ∧
  (∀ s : BitString, render s.length (blockValue s) = s)

/-- `toBlocks` checks the width before anything else; with w = 8, as ENC.CRC32 calls it, it cannot fail (R75). -/
def Obligations.WidthCheckGuardsBlocks : Prop :=
  (∀ bits w p, ¬ widthAllowed w → toBlocks bits w p = .error ⟨.invalidInput, .badWidth⟩) ∧
  (∀ bits w p, widthAllowed w → ∃ b, toBlocks bits w p = .ok b) ∧
  (∀ bits, ∃ r, encodeCrc32 bits = .ok r) ∧
  (∀ (s : State) w p o, validInput s →
    ((∃ t, exec (.encFletcher w p o) s = .next t ∧ t.status = 0x1B) ↔ ¬ widthAllowed w))

/-- Every block has exactly w bits: the padded string is a whole number of blocks, is the concatenation of their renderings,
and keeps the input or a prefix of it (40_bitblocker.md section 5). -/
def Obligations.BlocksPartitionThePaddedString : Prop :=
  ∀ (bits : BitString) (w : Nat) (p : PadPolicy) (b : Blocks), toBlocks bits w p = .ok b →
    b.paddedBits = (b.blocks.map (render w)).flatten ∧
    b.paddedBits.length = b.blocks.length * w ∧
    (∀ v ∈ b.blocks, v < 2 ^ w) ∧
    (p = .zp → b.blocks.length = (bits.length + w - 1) / w ∧ b.paddedBits.take bits.length = bits) ∧
    (p = .drop → b.blocks.length = bits.length / w ∧ b.paddedBits <+: bits)

/-! ## CRC32Engine -/

/-- The reduction table (R85): eight conditional shift-XOR steps, the corner entries and the trace for n = 1. -/
def Obligations.CrcTableEntries : Prop :=
  (∀ c : U32, crcShift c = if c &&& 1 = 1 then (c >>> 1) ^^^ 0xEDB88320 else c >>> 1) ∧
  (∀ n : BitVec 8, crcTab n =
    crcShift (crcShift (crcShift (crcShift (crcShift (crcShift (crcShift (crcShift (n.setWidth 32))))))))) ∧
  crcTab 0 = 0x00000000 ∧ crcTab 128 = 0xEDB88320 ∧ crcTab 1 = 0x77073096 ∧ crcTab 255 = 0x2D02EF8D ∧
  (∀ k x, (k, x) ∈ [(1, 0xEDB88320), (2, 0x76DC4190), (3, 0x3B6E20C8), (4, 0x1DB71064), (5, 0x0EDB8832), (6, 0x076DC419),
      (7, 0xEE0E612C), (8, 0x77073096)] → (crcShift^[k]) 1 = (x : U32))

/-- The table is linear over XOR and determined by its entries at the powers of two (41_crc32.md section 1). -/
def Obligations.CrcTableIsLinear : Prop :=
  (∀ a b : BitVec 8, crcTab (a ^^^ b) = crcTab a ^^^ crcTab b) ∧
  (List.range 8).map (fun i => crcTab (BitVec.ofNat 8 (2 ^ i))) =
    [0x77073096, 0xEE0E612C, 0x076DC419, 0x0EDB8832, 0x1DB71064, 0x3B6E20C8, 0x76DC4190, 0xEDB88320]

/-- The accumulator (R87): the empty list, and one more byte, for bytes in 0 .. 255; two worked examples. -/
def Obligations.Crc32Accumulates : Prop :=
  crc32 [] = 0x00000000 ∧
  (∀ (bytes : List Nat) (b : Nat) (acc : U32), b < 256 → acc = crc32 bytes ^^^ 0xFFFFFFFF →
    crc32 (bytes ++ [b]) =
      ((acc >>> 8) ^^^ crcTab (BitVec.ofNat 8 ((acc.toNat ^^^ b) &&& 0xFF))) ^^^ 0xFFFFFFFF) ∧
  crc32 [0xFF] = 0xFF000000 ∧ crc32 [0x00] = 0xD202EF8D

/-- The table form and the bit-serial form of the accumulator compute the same CRC (41_crc32.md section 3). -/
def Obligations.CrcTableFormEqualsSerialForm : Prop :=
  (∀ (acc : U32) (b : BitVec 8), crcSerialStep acc b = (acc >>> 8) ^^^ crcTab ((acc ^^^ b.setWidth 32).setWidth 8)) ∧
  (∀ bytes : List (BitVec 8),
    crc32 (bytes.map BitVec.toNat) = bytes.foldl crcSerialStep 0xFFFFFFFF ^^^ 0xFFFFFFFF)

/-- CRC-32 does not tell inputs apart that differ only by trailing zeros within the last byte (41_crc32.md section 4). -/
def Obligations.CrcIgnoresZerosThatFillTheLastByte : Prop :=
  ∀ (bits : BitString) (j : Nat), bits.length + j ≤ (bits.length + 7) / 8 * 8 →
    ∃ r r', encodeCrc32 bits = .ok r ∧ encodeCrc32 (bits ++ zeros j) = .ok r' ∧
      r'.padded = r.padded ∧ r'.trailer = r.trailer ∧ r'.codeword = r.codeword ∧ r'.padCount + j = r.padCount

/-! ## FletcherEngine -/

/-- The running sums (R102): seeded at 0, SUM1 before SUM2, each below M, so neither half of the trailer is all ones. The
closed form, which R102 marks as derived, is `FletcherSumsClosedForm`. -/
def Obligations.FletcherRunningSums : Prop :=
  ∀ (w : Nat) (M : Nat), widthAllowed w → M = 2 ^ w - 1 →
    fletcherSums [] w = ⟨0, 0⟩ ∧
    (∀ (blocks : List Nat) (v : Nat),
      (fletcherSums (blocks ++ [v]) w).sum1 = ((fletcherSums blocks w).sum1 + v) % M ∧
      (fletcherSums (blocks ++ [v]) w).sum2 = ((fletcherSums blocks w).sum2 + (fletcherSums (blocks ++ [v]) w).sum1) % M) ∧
    (∀ blocks : List Nat, (fletcherSums blocks w).sum1 ≤ M - 1 ∧ (fletcherSums blocks w).sum2 ≤ M - 1 ∧
      render w (fletcherSums blocks w).sum1 ≠ List.replicate w true ∧
      render w (fletcherSums blocks w).sum2 ≠ List.replicate w true)

/-- The modulus (R101): 2^w - 1 at every width, and the all-ones block reduces to 0. -/
def Obligations.FletcherModulusTable : Prop :=
  fletcherModulus 4 = 0xF ∧ fletcherModulus 8 = 0xFF ∧ fletcherModulus 16 = 0xFFFF ∧ fletcherModulus 32 = 4294967295 ∧
  (∀ w, fletcherModulus w = 2 ^ w - 1 ∧ (2 ^ w - 1) % fletcherModulus w = 0)

/-- The sums in closed form: the total, and the position-weighted total, modulo M (42_fletcher.md section 2). -/
def Obligations.FletcherSumsClosedForm : Prop :=
  ∀ (blocks : List Nat) (w : Nat), widthAllowed w →
    (fletcherSums blocks w).sum1 = blocks.sum % (2 ^ w - 1) ∧
    (fletcherSums blocks w).sum2 =
      (∑ j ∈ Finset.range blocks.length, (blocks.length - j) * blocks.getD j 0) % (2 ^ w - 1)

/-- The additions need w + 1 bits and no more, and one conditional subtraction reduces them (42_fletcher.md section 2). -/
def Obligations.FletcherAdditionsFitOneMoreBit : Prop :=
  ∀ (blocks : List Nat) (w v M : Nat), widthAllowed w → M = 2 ^ w - 1 → v < 2 ^ w →
    (fletcherSums blocks w).sum1 + v ≤ 2 ^ (w + 1) - 3 ∧
    (fletcherSums blocks w).sum2 + (fletcherSums (blocks ++ [v]) w).sum1 ≤ 2 ^ (w + 1) - 4 ∧
    (∀ x, x ≤ 2 * M - 1 → x % M = if M ≤ x then x - M else x)

/-- The trailer (R104): two rendered sums in the order of ORD, 2w bits. -/
def Obligations.FletcherTrailerOrder : Prop :=
  ∀ (blocks : List Nat) (w : Nat),
    fletcherTrailer blocks w .s1s2 = render w (fletcherSums blocks w).sum1 ++ render w (fletcherSums blocks w).sum2 ∧
    fletcherTrailer blocks w .s2s1 = render w (fletcherSums blocks w).sum2 ++ render w (fletcherSums blocks w).sum1 ∧
    (∀ o, (fletcherTrailer blocks w o).length = 2 * w)

/-- The corner cases of 42_fletcher.md section 4: a short input under the drop policy, whole blocks, equal sums, and
all-ones blocks that the checksum cannot tell from all-zeros blocks. -/
def Obligations.FletcherCornerCases : Prop :=
  (∀ bits w o, widthAllowed w → bits.length < w →
    encodeFletcher w .drop o bits = .ok ⟨[], zeros (2 * w), zeros (2 * w), 0⟩) ∧
  (∀ bits w o, widthAllowed w → bits.length % w = 0 → encodeFletcher w .zp o bits = encodeFletcher w .drop o bits) ∧
  (∀ blocks w, (fletcherSums blocks w).sum1 = (fletcherSums blocks w).sum2 →
    fletcherTrailer blocks w .s1s2 = fletcherTrailer blocks w .s2s1) ∧
  (∀ (pre post : List Nat) w o, widthAllowed w →
    fletcherTrailer (pre ++ [2 ^ w - 1] ++ post) w o = fletcherTrailer (pre ++ [0] ++ post) w o) ∧
  fletcherSums [0xFFFFFFFF, 1] 32 = ⟨1, 1⟩

/-! ## HammingEngine -/

/-- The parity-bit count (R115): the first r with m + r + 1 <= 2^r; at least 2 for m >= 1. The table of values, which R115
marks as derived, is in `HammingCornerCases`. -/
def Obligations.HammingParityCountIsMinimal : Prop :=
  ∀ m r : Nat, r = hammingR m →
    m + r + 1 ≤ 2 ^ r ∧ m ≤ 2 ^ r - r - 1 ∧ (∀ q, q < r → ¬ m + q + 1 ≤ 2 ^ q) ∧ (1 ≤ m → 2 ≤ r)

/-- The parity positions are exactly the r powers of two in 1 .. n, and exactly m positions are left for the data
(43_hamming.md section 1). -/
def Obligations.HammingPositionsSplit : Prop :=
  ∀ m r : Nat, 1 ≤ m → r = hammingR m →
    (positions (m + r)).filter isPow2 = (List.range r).map (2 ^ ·) ∧
    ((positions (m + r)).filter (fun pos => !isPow2 pos)).length = m ∧
    (∀ pos, 1 ≤ pos → (isPow2 pos = true ↔ ∃ k, pos = 2 ^ k))

/-- Placement (R117): the data bits stand in order at the positions that are no power of two, the others hold 0. -/
def Obligations.HammingPlacementKeepsDataOrder : Prop :=
  ∀ (d : BitString) (n : Nat), d ≠ [] → n = d.length + hammingR d.length →
    (place d n).length = n ∧
    ((positions n).filter (fun pos => !isPow2 pos)).map (hcwBit (place d n)) = d ∧
    (∀ pos, 1 ≤ pos → pos ≤ n → isPow2 pos = true → hcwBit (place d n) pos = false)

/-- The codeword: n = m + r bits, the data in order at the positions that are no power of two, each parity bit the XOR of
the data bits it covers, and even parity over every covered set (43_hamming.md sections 2 to 4). -/
def Obligations.HammingCodewordHasEvenParity : Prop :=
  ∀ (d c : BitString) (n : Nat), d ≠ [] → n = d.length + hammingR d.length → hamming d = .ok c →
    c.length = n ∧
    ((positions n).filter (fun pos => !isPow2 pos)).map (hcwBit c) = d ∧
    (∀ i, i < hammingR d.length →
      parityOf c n i = false ∧
      hcwBit c (2 ^ i) = ((covered n i).filter (fun pos => !isPow2 pos)).foldl (fun x pos => x ^^ hcwBit c pos) false)

/-- The code is single-error-correcting (a property of the codeword, not a behaviour of the block: 91_not_in_source.md
N14): flip any one position, and the parities that fail spell that position in binary. -/
def Obligations.HammingSyndromeLocatesOneError : Prop :=
  ∀ (d c : BitString) (n p i : Nat), d ≠ [] → hamming d = .ok c → n = c.length → 1 ≤ p → p ≤ n →
    i < hammingR d.length → parityOf (flipPosition c p) n i = p.testBit i

/-- The corner cases of 43_hamming.md section 4: one data bit is repeated three times, zero data gives the zero codeword,
the perfect lengths, and the table of values of r in section 1. -/
def Obligations.HammingCornerCases : Prop :=
  (∀ b : Bool, hamming [b] = .ok [b, b, b]) ∧
  (∀ m, 1 ≤ m → hamming (zeros m) = .ok (zeros (m + hammingR m))) ∧
  (∀ r m, 2 ≤ r → m + r + 1 = 2 ^ r → hammingR m = r ∧ hammingR (m + 1) = r + 1) ∧
  (∀ lo hi r, (lo, hi, r) ∈ [(1, 1, 2), (2, 4, 3), (5, 11, 4), (12, 26, 5), (27, 57, 6), (58, 120, 7), (121, 247, 8),
    (248, 502, 9)] → ∀ m, lo ≤ m → m ≤ hi → hammingR m = r)

/-- The engine fails on the empty input only; behind ENC that check never fires, since every ENC has already reported the
same kind and cause (R120). -/
def Obligations.HammingFailsOnlyOnEmptyInput : Prop :=
  (∀ d : BitString, hamming d = .error ⟨.invalidInput, .emptyInput⟩ ↔ d = []) ∧
  (∀ d : BitString, d ≠ [] → ∃ c, hamming d = .ok c) ∧
  (∀ s : State, validInput s → ∃ t, exec .encHamming s = .next t ∧ t.status = 0x01) ∧
  (∀ (i : Instr) (s : State), isEnc i = true → s.mem.ibuf = [] → ∃ t, exec i s = .next t ∧ t.status = 0x0B)

/-! ## Invariants -/

/-- The reset state is good. -/
def Obligations.InvHoldsAtReset : Prop := Inv State.reset

/-- Every step from a good state that goes on leads to a good state: IBUF stays within CAP, STATUS keeps to its six values,
and the record is empty or is the encoding of ORIG (10_state.md sections 2 to 4). -/
def Obligations.StepKeepsInv : Prop :=
  ∀ s t : State, Inv s → step s = .next t → Inv t

/-- The record of a good state when STATUS says "result valid" (10_state.md section 4): CODEWORD is PADDED ++ TRAILER, or
it is a Hamming record; TLEN is one of 0, 8, 16, 32, 64. -/
def Obligations.GoodRecordsAreConsistent : Prop :=
  ∀ s : State, Inv s → s.status = 0x01 →
    1 ≤ s.mem.orig.length ∧ s.mem.trailer.length ∈ [0, 8, 16, 32, 64] ∧
    ((s.mem.codeword = s.mem.padded ++ s.mem.trailer ∧
        s.mem.codeword.length = s.mem.padded.length + s.mem.trailer.length ∧
        ((s.mem.padded = s.mem.orig ++ zeros s.padcnt.toNat) ∨ (s.mem.padded <+: s.mem.orig ∧ s.padcnt = 0))) ∨
     (s.mem.padded = s.mem.orig ∧ s.mem.trailer = [] ∧ s.padcnt = 0 ∧
        s.mem.codeword.length = s.mem.orig.length + hammingR s.mem.orig.length))

/-! ## Assembler -/

/-- The pseudo-instructions expand as R62 says, the named variants by the pair the parameters give them (D14, log 15). -/
def Obligations.PseudoInstructionsExpand : Prop :=
  (∀ cfg syms, expandLine cfg (.load syms) = .clr :: syms.map .push) ∧
  (∀ cfg syms, expandLine cfg (.append syms) = syms.map .push) ∧
  (∀ w, expandLine Config.specDefault (.fletcherPadzero w) = [.encFletcher w .zp .s1s2]) ∧
  (∀ w, expandLine Config.specDefault (.fletcherDroppartial w) = [.encFletcher w .drop .s2s1]) ∧
  (∀ cfg n, 3 ≤ n → n ≤ 15 → ∃ i, expandLine cfg (.encAlg n) = [i] ∧ isUnsup i = true ∧
    (encode i).toNat = 0x2000 + 256 * n)
end

