-- ==== Sys2Proof/Laws/State.lean ====
section
/-! SUPPORT. One lemma per field per state update, so that no proof unfolds a record update. -/

namespace Sys2Proof.Machine

@[simp] theorem appendSymbol_config (c : Symbol) (s : State) : (appendSymbol c s).config = s.config := rfl
@[simp] theorem appendSymbol_ibuf (c : Symbol) (s : State) : (appendSymbol c s).mem.ibuf = s.mem.ibuf ++ [c] := rfl
@[simp] theorem appendSymbol_orig (c : Symbol) (s : State) : (appendSymbol c s).mem.orig = s.mem.orig := rfl
@[simp] theorem appendSymbol_padded (c : Symbol) (s : State) : (appendSymbol c s).mem.padded = s.mem.padded := rfl
@[simp] theorem appendSymbol_trailer (c : Symbol) (s : State) : (appendSymbol c s).mem.trailer = s.mem.trailer := rfl
@[simp] theorem appendSymbol_codeword (c : Symbol) (s : State) : (appendSymbol c s).mem.codeword = s.mem.codeword := rfl
@[simp] theorem appendSymbol_padcnt (c : Symbol) (s : State) : (appendSymbol c s).padcnt = s.padcnt := rfl
@[simp] theorem appendSymbol_status (c : Symbol) (s : State) : (appendSymbol c s).status = s.status := rfl
@[simp] theorem appendSymbol_stream (c : Symbol) (s : State) : (appendSymbol c s).stream = s.stream := rfl
@[simp] theorem appendSymbol_replies (c : Symbol) (s : State) : (appendSymbol c s).replies = s.replies := rfl

@[simp] theorem clearAll_config (s : State) : (clearAll s).config = s.config := rfl
@[simp] theorem clearAll_mem (s : State) : (clearAll s).mem = Memory.empty := rfl
@[simp] theorem clearAll_padcnt (s : State) : (clearAll s).padcnt = 0 := rfl
@[simp] theorem clearAll_status (s : State) : (clearAll s).status = statusIdle := rfl
@[simp] theorem clearAll_stream (s : State) : (clearAll s).stream = s.stream := rfl
@[simp] theorem clearAll_replies (s : State) : (clearAll s).replies = s.replies := rfl

@[simp] theorem commitResult_config (bits : BitString) (r : EncodeResult) (s : State) : (commitResult bits r s).config = s.config := rfl
@[simp] theorem commitResult_ibuf (bits : BitString) (r : EncodeResult) (s : State) : (commitResult bits r s).mem.ibuf = s.mem.ibuf := rfl
@[simp] theorem commitResult_orig (bits : BitString) (r : EncodeResult) (s : State) : (commitResult bits r s).mem.orig = bits := rfl
@[simp] theorem commitResult_padded (bits : BitString) (r : EncodeResult) (s : State) : (commitResult bits r s).mem.padded = r.padded := rfl
@[simp] theorem commitResult_trailer (bits : BitString) (r : EncodeResult) (s : State) : (commitResult bits r s).mem.trailer = r.trailer := rfl
@[simp] theorem commitResult_codeword (bits : BitString) (r : EncodeResult) (s : State) : (commitResult bits r s).mem.codeword = r.codeword := rfl
@[simp] theorem commitResult_padcnt (bits : BitString) (r : EncodeResult) (s : State) : (commitResult bits r s).padcnt = BitVec.ofNat 5 r.padCount := rfl
@[simp] theorem commitResult_status (bits : BitString) (r : EncodeResult) (s : State) : (commitResult bits r s).status = statusResult := rfl
@[simp] theorem commitResult_stream (bits : BitString) (r : EncodeResult) (s : State) : (commitResult bits r s).stream = s.stream := rfl
@[simp] theorem commitResult_replies (bits : BitString) (r : EncodeResult) (s : State) : (commitResult bits r s).replies = s.replies := rfl

@[simp] theorem errorEntry_config (e : EceError) (s : State) : (errorEntry e s).config = s.config := rfl
@[simp] theorem errorEntry_ibuf (e : EceError) (s : State) : (errorEntry e s).mem.ibuf = s.mem.ibuf := rfl
@[simp] theorem errorEntry_orig (e : EceError) (s : State) : (errorEntry e s).mem.orig = [] := rfl
@[simp] theorem errorEntry_padded (e : EceError) (s : State) : (errorEntry e s).mem.padded = [] := rfl
@[simp] theorem errorEntry_trailer (e : EceError) (s : State) : (errorEntry e s).mem.trailer = [] := rfl
@[simp] theorem errorEntry_codeword (e : EceError) (s : State) : (errorEntry e s).mem.codeword = [] := rfl
@[simp] theorem errorEntry_padcnt (e : EceError) (s : State) : (errorEntry e s).padcnt = 0 := rfl
@[simp] theorem errorEntry_status (e : EceError) (s : State) : (errorEntry e s).status = statusOfError e := rfl
@[simp] theorem errorEntry_stream (e : EceError) (s : State) : (errorEntry e s).stream = s.stream := rfl
@[simp] theorem errorEntry_replies (e : EceError) (s : State) : (errorEntry e s).replies = s.replies := rfl

@[simp] theorem assertReset_config (s : State) : (assertReset s).config = s.config := rfl
@[simp] theorem assertReset_mem (s : State) : (assertReset s).mem = Memory.empty := rfl
@[simp] theorem assertReset_padcnt (s : State) : (assertReset s).padcnt = 0 := rfl
@[simp] theorem assertReset_status (s : State) : (assertReset s).status = 0x00 := rfl
@[simp] theorem assertReset_stream (s : State) : (assertReset s).stream = s.stream := rfl
@[simp] theorem assertReset_replies (s : State) : (assertReset s).replies = s.replies := rfl

@[simp] theorem reply_config (r : Reply) (s : State) : (reply r s).config = s.config := rfl
@[simp] theorem reply_mem (r : Reply) (s : State) : (reply r s).mem = s.mem := rfl
@[simp] theorem reply_padcnt (r : Reply) (s : State) : (reply r s).padcnt = s.padcnt := rfl
@[simp] theorem reply_status (r : Reply) (s : State) : (reply r s).status = s.status := rfl
@[simp] theorem reply_stream (r : Reply) (s : State) : (reply r s).stream = s.stream := rfl
@[simp] theorem reply_replies (r : Reply) (s : State) : (reply r s).replies = s.replies ++ [r] := rfl

@[simp] theorem presentAction_config (a : HostAction) (s : State) : (presentAction a s).config = s.config := rfl
@[simp] theorem presentAction_mem (a : HostAction) (s : State) : (presentAction a s).mem = s.mem := rfl
@[simp] theorem presentAction_padcnt (a : HostAction) (s : State) : (presentAction a s).padcnt = s.padcnt := rfl
@[simp] theorem presentAction_status (a : HostAction) (s : State) : (presentAction a s).status = s.status := rfl
@[simp] theorem presentAction_stream (a : HostAction) (s : State) : (presentAction a s).stream = a :: s.stream := rfl
@[simp] theorem presentAction_replies (a : HostAction) (s : State) : (presentAction a s).replies = s.replies := rfl

@[simp] theorem reset_config : State.reset.config = Config.specDefault := rfl
@[simp] theorem reset_mem : State.reset.mem = Memory.empty := rfl
@[simp] theorem reset_padcnt : State.reset.padcnt = 0 := rfl
@[simp] theorem reset_status : State.reset.status = 0x00 := rfl
@[simp] theorem reset_stream : State.reset.stream = [] := rfl
@[simp] theorem reset_replies : State.reset.replies = [] := rfl

@[simp] theorem empty_ibuf : Memory.empty.ibuf = [] := rfl
@[simp] theorem empty_orig : Memory.empty.orig = [] := rfl
@[simp] theorem empty_padded : Memory.empty.padded = [] := rfl
@[simp] theorem empty_trailer : Memory.empty.trailer = [] := rfl
@[simp] theorem empty_codeword : Memory.empty.codeword = [] := rfl

end Sys2Proof.Machine
end

