-- ==== Sys2Proof/Laws/Ops.lean ====
section
/-! SUPPORT. What each shared operation can do, said once; provers cite these instead of unfolding the operations. -/

namespace Sys2Proof.Machine

/-! ## STATUS -/

@[simp] theorem statusIdle_eq : statusIdle = 0x00 := by decide
@[simp] theorem statusResult_eq : statusResult = 0x01 := by decide
@[simp] theorem statusOfError_empty : statusOfError errEmptyInput = 0x0B := by decide
@[simp] theorem statusOfError_nonbinary : statusOfError errNonbinarySymbol = 0x13 := by decide
@[simp] theorem statusOfError_badWidth : statusOfError errBadWidth = 0x1B := by decide
@[simp] theorem statusOfError_unknown : statusOfError errUnknownAlgorithm = 0x25 := by decide

/-! ## Symbols and the input string -/

theorem isBitSymbol_iff (c : Symbol) : isBitSymbol c = true ↔ c = 0x30 ∨ c = 0x31 := by
  simp [isBitSymbol, sym0, sym1]

theorem symbolOfBit_bitOfSymbol {c : Symbol} (h : c = 0x30 ∨ c = 0x31) : symbolOfBit (bitOfSymbol c) = c := by
  rcases h with rfl | rfl <;> decide

theorem bitOfSymbol_eq {c : Symbol} (h : c = 0x30 ∨ c = 0x31) : bitOfSymbol c = (c == 0x31) := by
  rcases h with rfl | rfl <;> decide

theorem inputBits_nil : inputBits [] = .error errEmptyInput := rfl

theorem inputBits_valid {l : List Symbol} (hne : l ≠ []) (h : ∀ c ∈ l, c = 0x30 ∨ c = 0x31) :
    inputBits l = .ok (l.map (· == 0x31)) := by
  have hall : l.all isBitSymbol = true := by
    simpa only [List.all_eq_true, isBitSymbol_iff] using h
  have hmap : l.map bitOfSymbol = l.map (· == 0x31) :=
    List.map_congr_left fun c hc => bitOfSymbol_eq (h c hc)
  simp [inputBits, hne, hall, hmap]

theorem inputBits_nonbinary {l : List Symbol} (h : ∃ c ∈ l, ¬ (c = 0x30 ∨ c = 0x31)) :
    inputBits l = .error errNonbinarySymbol := by
  obtain ⟨c, hc, hb⟩ := h
  have hne : l ≠ [] := List.ne_nil_of_mem hc
  have hall : ¬ l.all isBitSymbol = true := by
    simp only [List.all_eq_true, isBitSymbol_iff, not_forall]
    exact ⟨c, hc, hb⟩
  simp [inputBits, hne, hall]

/-- Everything step 1 of ENC can answer (R132, R157). -/
theorem inputBits_cases (l : List Symbol) :
    (l = [] ∧ inputBits l = .error errEmptyInput) ∨
    (l ≠ [] ∧ (∃ c ∈ l, ¬ (c = 0x30 ∨ c = 0x31)) ∧ inputBits l = .error errNonbinarySymbol) ∨
    (l ≠ [] ∧ (∀ c ∈ l, c = 0x30 ∨ c = 0x31) ∧ inputBits l = .ok (l.map (· == 0x31))) := by
  by_cases hnil : l = []
  · exact .inl ⟨hnil, hnil ▸ inputBits_nil⟩
  · by_cases hall : ∀ c ∈ l, c = 0x30 ∨ c = 0x31
    · exact .inr (.inr ⟨hnil, hall, inputBits_valid hnil hall⟩)
    · have hex : ∃ c ∈ l, ¬ (c = 0x30 ∨ c = 0x31) := by
        simpa only [not_forall, exists_prop] using hall
      exact .inr (.inl ⟨hnil, hex, inputBits_nonbinary hex⟩)

theorem legalWidth_iff (w : Nat) : legalWidth w = true ↔ w = 4 ∨ w = 8 ∨ w = 16 ∨ w = 32 := by
  simp [legalWidth, or_assoc]

/-! ## The encode commands -/

/-- Everything an ENC can do (R132): commit the engine's result over the valid input, or error entry. -/
theorem encodeWith_cases (engine : BitString → Except EceError EncodeResult) (s : State) :
    (∃ bits r, inputBits s.mem.ibuf = .ok bits ∧ engine bits = .ok r ∧ encodeWith engine s = commitResult bits r s) ∨
    (∃ e, (inputBits s.mem.ibuf = .error e ∨ ∃ bits, inputBits s.mem.ibuf = .ok bits ∧ engine bits = .error e) ∧
      encodeWith engine s = errorEntry e s) := by
  cases hin : inputBits s.mem.ibuf with
  | error e => exact .inr ⟨e, .inl rfl, by simp [encodeWith, hin]⟩
  | ok bits =>
    cases heng : engine bits with
    | error e => exact .inr ⟨e, .inr ⟨bits, rfl, heng⟩, by simp [encodeWith, hin, heng]⟩
    | ok r => exact .inl ⟨bits, r, rfl, heng, by simp [encodeWith, hin, heng]⟩

@[simp] theorem encodeWith_ibuf (engine : BitString → Except EceError EncodeResult) (s : State) :
    (encodeWith engine s).mem.ibuf = s.mem.ibuf := by
  obtain ⟨_, _, _, _, h⟩ | ⟨_, _, h⟩ := encodeWith_cases engine s <;> simp [h]

@[simp] theorem encodeWith_config (engine : BitString → Except EceError EncodeResult) (s : State) :
    (encodeWith engine s).config = s.config := by
  obtain ⟨_, _, _, _, h⟩ | ⟨_, _, h⟩ := encodeWith_cases engine s <;> simp [h]

@[simp] theorem encodeWith_stream (engine : BitString → Except EceError EncodeResult) (s : State) :
    (encodeWith engine s).stream = s.stream := by
  obtain ⟨_, _, _, _, h⟩ | ⟨_, _, h⟩ := encodeWith_cases engine s <;> simp [h]

@[simp] theorem encodeWith_replies (engine : BitString → Except EceError EncodeResult) (s : State) :
    (encodeWith engine s).replies = s.replies := by
  obtain ⟨_, _, _, _, h⟩ | ⟨_, _, h⟩ := encodeWith_cases engine s <;> simp [h]

/-! ## PUSH -/

theorem hasRoom_iff (s : State) : hasRoom s = true ↔ ∀ c, s.config.cap = some c → s.mem.ibuf.length < c := by
  cases h : s.config.cap <;> simp [hasRoom, h]

/-- Everything PUSH can do (R131). -/
theorem execPush_cases (c : Symbol) (s : State) :
    (hasRoom s = true ∧ execPush c s = .next (appendSymbol c s)) ∨
    (hasRoom s = false ∧ execPush c s = .refused .inputBufferFull) := by
  cases h : hasRoom s <;> simp [execPush, h]

/-! ## Reads -/

theorem bufRead_eq_ok {m : Memory} {b i : Nat} {c : Symbol} :
    bufRead m b i = .ok c ↔ ∃ l, bufferSymbols m b = some l ∧ l[i]? = some c := by
  cases hb : bufferSymbols m b with
  | none => simp [bufRead, hb]
  | some l => cases hi : l[i]? <;> simp [bufRead, hb, hi]

theorem bufRead_eq_error {m : Memory} {b i : Nat} (h : ∀ l, bufferSymbols m b = some l → l[i]? = none) :
    bufRead m b i = .error (.bufReadUndefined b i) := by
  cases hb : bufferSymbols m b with
  | none => simp [bufRead, hb]
  | some l => simp [bufRead, hb, h l hb]

/-! ## The host's actions -/

@[simp] theorem takeAction_nil {s : State} (h : s.stream = []) : takeAction s = none := by
  simp [takeAction, h]

@[simp] theorem takeAction_cons {s : State} {a : HostAction} {rest : List HostAction} (h : s.stream = a :: rest) :
    takeAction s = some (a, { s with stream := rest }) := by
  simp [takeAction, h]

/-- A step performs the action at the head of the stream. -/
theorem step_cons {s : State} {a : HostAction} {rest : List HostAction} (h : s.stream = a :: rest) :
    step s = perform a { s with stream := rest } := by
  unfold step stepHost
  rw [takeAction_cons h]

theorem issueWord_ok {w : Word} {i : Instr} (s : State) (h : decode w = .ok i) : issueWord w s = exec i s := by
  simp [issueWord, h]

/-- Everything an action that goes on can do (R191): run a decoded command, answer a read, or reset. -/
theorem perform_cases {a : HostAction} {s t : State} (h : perform a s = .next t) :
    (∃ w i, a = .issue w ∧ decode w = .ok i ∧ exec i s = .next t) ∨
    (∃ r, t = reply r s ∧ ((∃ n, a = .regRead n) ∨ ∃ b i, a = .bufRead b i)) ∨
    (a = .reset ∧ t = assertReset s) := by
  cases a with
  | issue w =>
    cases hd : decode w with
    | ok i => exact .inl ⟨w, i, rfl, hd, by simpa [perform, issueWord, hd] using h⟩
    | error e => cases e; simp [perform, issueWord, hd] at h
  | regRead n =>
    cases hr : regRead s n with
    | ok v =>
      simp only [perform, performRegRead, hr, Host.Outcome.next.injEq] at h
      exact .inr (.inl ⟨_, h.symm, .inl ⟨n, rfl⟩⟩)
    | error r => simp [perform, performRegRead, hr] at h
  | bufRead b i =>
    cases hr : bufRead s.mem b i with
    | ok c =>
      simp only [perform, performBufRead, hr, Host.Outcome.next.injEq] at h
      exact .inr (.inl ⟨_, h.symm, .inr ⟨b, i, rfl⟩⟩)
    | error r => simp [perform, performBufRead, hr] at h
  | reset =>
    simp only [perform, Host.Outcome.next.injEq] at h
    exact .inr (.inr ⟨rfl, h.symm⟩)

/-! ## The buffer space keeps its form -/

theorem memory_wf_reset : State.reset.mem.wf State.reset.config.cap = true := by decide

theorem memory_wf_iff (cap : Option Nat) (m : Memory) :
    m.wf cap = true ↔ ∀ c, cap = some c → m.ibuf.length ≤ c := by
  cases cap <;> simp [Memory.wf]

theorem memory_wf_empty (cap : Option Nat) : Memory.empty.wf cap = true := by
  simp [memory_wf_iff]

theorem memory_wf_appendSymbol {s : State} (c : Symbol) (h : hasRoom s = true) :
    (appendSymbol c s).mem.wf s.config.cap = true := by
  rw [hasRoom_iff] at h
  rw [memory_wf_iff]
  intro n hn
  have := h n hn
  simp
  omega

theorem memory_wf_encodeWith {s : State} (engine : BitString → Except EceError EncodeResult)
    (h : s.mem.wf s.config.cap = true) : (encodeWith engine s).mem.wf s.config.cap = true := by
  rw [memory_wf_iff] at h ⊢
  simpa using h

end Sys2Proof.Machine
end

