-- ==== Sys2Proof/Laws/Engines.lean ====
section
/-! SUPPORT. The small facts of the engines' own definitions. -/

namespace Sys2Proof.Machine

@[simp] theorem zeros_length (k : Nat) : (zeros k).length = k := by simp [zeros]

@[simp] theorem render_length (w v : Nat) : (render w v).length = w := by simp [render]

@[simp] theorem blockValue_nil : blockValue [] = 0 := rfl

theorem blockValue_snoc (s : BitString) (b : Bool) : blockValue (s ++ [b]) = 2 * blockValue s + b.toNat := by
  simp [blockValue]

theorem toBlocks_legal {w : Nat} (h : legalWidth w = true) (bits : BitString) (p : PadPolicy) :
    toBlocks bits w p = .ok ⟨blocksOf (applyPolicy p bits w).1 w, (applyPolicy p bits w).1, (applyPolicy p bits w).2⟩ := by
  simp [toBlocks, h]

theorem toBlocks_illegal {w : Nat} (h : legalWidth w = false) (bits : BitString) (p : PadPolicy) :
    toBlocks bits w p = .error errBadWidth := by
  simp [toBlocks, h]

@[simp] theorem crc32_nil : crc32 [] = 0 := by decide

@[simp] theorem fletcherSums_nil (w : Nat) : fletcherSums [] w = ⟨0, 0⟩ := rfl

theorem fletcherSums_snoc (blocks : List Nat) (v w : Nat) :
    fletcherSums (blocks ++ [v]) w = fletcherStep (fletcherModulus w) (fletcherSums blocks w) v := by
  simp [fletcherSums]

@[simp] theorem positions_length (n : Nat) : (positions n).length = n := by simp [positions]

theorem mem_positions {n pos : Nat} : pos ∈ positions n ↔ 1 ≤ pos ∧ pos ≤ n := by
  simp [positions, List.mem_range'_1]
  omega

@[simp] theorem placeFrom_length (poss : List Nat) (d : BitString) : (placeFrom poss d).length = poss.length := by
  induction poss generalizing d with
  | nil => rfl
  | cons pos rest ih => cases hp : isPow2 pos <;> simp [placeFrom, hp, ih]

@[simp] theorem parity_length (h : BitString) (r n : Nat) : (parity h r n).length = h.length := by
  induction r generalizing h with
  | zero => rfl
  | succ r ih =>
    rw [parity, List.range_succ, List.foldl_append]
    simp only [List.foldl_cons, List.foldl_nil, List.length_set]
    exact ih h

theorem hamming_nonempty {d : BitString} (h : d ≠ []) : hamming d = .ok (hammingCodeword d) := by
  simp [hamming, h]

end Sys2Proof.Machine
end

