-- ==== Sys2Proof/Laws/PerInstr.lean ====
section
/-! SUPPORT. Facts about every instruction as syntax, one lemma per constructor. -/

namespace Sys2Proof.Laws

/-- The canonical word of a well-formed instruction selects the instruction's own row of the opcode map (R61). -/
def EncodeSelectsRow.Statement (i : Instr) : Prop := i.wf = true → (rowOf i).selects (encode i) = true

namespace EncodeSelectsRow

theorem clr : Statement .clr := fun _ => by decide

theorem push (sym : Symbol) : Statement (.push sym) := fun _ => by
  revert sym
  decide

theorem encCrc32 : Statement .encCrc32 := fun _ => by decide

theorem encFletcher (width : Nat) (pad : PadPolicy) (ord : TrailerOrder) : Statement (.encFletcher width pad ord) := by
  intro h
  have hw : width < 64 := by simpa [Instr.wf] using h
  interval_cases width <;> cases pad <;> cases ord <;> decide

theorem encHamming : Statement .encHamming := fun _ => by decide

theorem encUnsup3 : Statement .encUnsup3 := fun _ => by decide

theorem encUnsup4 (alg : Nat) : Statement (.encUnsup4 alg) := by
  intro h
  have ha : 4 ≤ alg ∧ alg < 8 := by simpa [Instr.wf] using h
  obtain ⟨hlo, hhi⟩ := ha
  interval_cases alg <;> decide

theorem encUnsup8 (alg : Nat) : Statement (.encUnsup8 alg) := by
  intro h
  have ha : 8 ≤ alg ∧ alg < 16 := by simpa [Instr.wf] using h
  obtain ⟨hlo, hhi⟩ := ha
  interval_cases alg <;> decide

end EncodeSelectsRow

end Sys2Proof.Laws
end

