-- ==== Sys2Proof/Laws/Safety.lean ====
section
/-! SUPPORT. The small facts of the statements' own terms. -/

namespace Sys2Proof

open Machine

theorem issues_iff {s : State} {w : Word} {rest : List HostAction} (h : s.stream = .issue w :: rest) (i : Instr) :
    issues s i ↔ decode w = .ok i := by
  constructor
  · rintro ⟨w', rest', hs, hd⟩
    rw [h, List.cons.injEq, HostAction.issue.injEq] at hs
    exact hs.1 ▸ hd
  · exact fun hd => ⟨w, rest, h, hd⟩

theorem not_issues_of_head {s : State} {a : HostAction} {rest : List HostAction} (h : s.stream = a :: rest)
    (ha : ∀ w, a ≠ .issue w) (i : Instr) : ¬ issues s i := by
  rintro ⟨w, rest', hs, -⟩
  rw [h, List.cons.injEq] at hs
  exact ha w hs.1

theorem not_issues_nil {s : State} (h : s.stream = []) (i : Instr) : ¬ issues s i := by
  rintro ⟨w, rest, hs, -⟩
  simp [h] at hs

theorem validInput_iff (s : State) :
    validInput s ↔ s.mem.ibuf ≠ [] ∧ ∀ c ∈ s.mem.ibuf, c = 0x30 ∨ c = 0x31 := Iff.rfl

/-- What a valid input gives the engine (R132 step 1). -/
theorem inputBits_of_validInput {s : State} (h : validInput s) : inputBits s.mem.ibuf = .ok (inputString s) :=
  inputBits_valid h.1 h.2

theorem widthAllowed_iff (w : Nat) : widthAllowed w ↔ legalWidth w = true := (legalWidth_iff w).symm

end Sys2Proof
end

