-- ==== Sys2Proof/Tests/Slice0.lean ====
section
/-! SUPPORT. Tests with results from spec/ (the vector or rule is named), and a witness for the hypotheses of each
statement. -/

namespace Sys2Proof.Tests

open Sys2Proof.Machine

/-- The bits of a written string. -/
def bits (s : String) : BitString := s.toList.map (· == '1')

/-- Reset, with the written symbols in IBUF. -/
def loaded (s : String) : State :=
  { State.reset with mem := { Memory.empty with ibuf := s.toList.map fun c => BitVec.ofNat 8 c.toNat } }

/-- The same with one action of the host waiting. -/
def facing (s : String) (a : HostAction) : State := { loaded s with stream := [a] }

/-- STATUS, CODEWORD, PADCNT and ILEN after one command over the written input. -/
def after (i : Instr) (s : String) : Option (BitVec 8 × BitString × Nat × Nat) :=
  match exec i (loaded s) with
  | .next t => some (t.status, t.mem.codeword, t.padcnt.toNat, t.mem.ibuf.length)
  | .fault _ => none
  | .refused _ => none

/-! ## WellFormed refuses ill-formed terms -/

theorem test_wf_width : (Instr.encFletcher 64 .zp .s1s2).wf = false := by decide
theorem test_wf_alg4_low : (Instr.encUnsup4 3).wf = false := by decide
theorem test_wf_alg4_high : (Instr.encUnsup4 8).wf = false := by decide
theorem test_wf_alg8_low : (Instr.encUnsup8 7).wf = false := by decide
theorem test_wf_alg8_high : (Instr.encUnsup8 16).wf = false := by decide

/-! ## Decoding: words written out from R50, R51, R55 (OPC, ALG, WIDTH, PAD, ORD) -/

theorem test_decode_clr : decode 0b0000101010111100 = .ok .clr := by decide
theorem test_decode_push : decode 0b0001111100110001 = .ok (.push 0x31) := by decide
theorem test_decode_crc32 : decode 0b0010000000010100 = .ok .encCrc32 := by decide
theorem test_decode_fletcher : decode 0b0010000100100011 = .ok (.encFletcher 8 .drop .s2s1) := by decide
theorem test_decode_fletcher_ord : decode 0b0010000110000001 = .ok (.encFletcher 32 .zp .s2s1) := by decide
theorem test_decode_hamming : decode 0b0010001000010111 = .ok .encHamming := by decide
theorem test_decode_unsup3 : decode 0b0010001111111111 = .ok .encUnsup3 := by decide
theorem test_decode_unsup4 : decode 0b0010011100000000 = .ok (.encUnsup4 7) := by decide
theorem test_decode_unsup8 : decode 0b0010111111111111 = .ok (.encUnsup8 15) := by decide
theorem test_decode_reserved : decode 0b0011000000000000 = .error (.reservedOpcode 3) := by decide
theorem test_decode_table_word : decodeTableWord 16 0x2123 = some (.encFletcher 8 .drop .s2s1) := by decide

/-! ## Commands -/

/-- P3: `push '0'` after ENC.HAMMING leaves the record (OLEN 4) and ILEN grows to 5. -/
theorem test_push_keeps_record :
    (match exec .encHamming (loaded "1011") with
      | .next t =>
        match exec (.push 0x30) t with
        | .next u => some (u.mem.ibuf.length, u.mem.orig.length, u.status)
        | _ => none
      | _ => none) = some (5, 4, 0x01) := by decide

/-- U2: PUSH at ILEN = CAP is refused. -/
theorem test_push_full :
    (match exec (.push 0x30) { loaded "1" with config := { Config.specDefault with cap := some 1 } } with
      | .refused .inputBufferFull => true
      | _ => false) = true := by decide

/-- P4: CLR removes the error indication and the symbols. -/
theorem test_clr :
    (match exec .clr { loaded "12" with status := 0x13 } with
      | .next t => some t.visible
      | _ => none) = some State.reset.visible := by decide

/-- V-C3 (`"1"`: CRC 3FBA6CAD, PADCNT 7), which fixes the bit order. -/
theorem test_crc32_one :
    after .encCrc32 "1" = some (0x01, bits "1000000000111111101110100110110010101101", 7, 1) := by decide +kernel

/-- V-C8: the check value of the parameter set (K2). -/
theorem test_crc32_check_value :
    crc32 [0x31, 0x32, 0x33, 0x34, 0x35, 0x36, 0x37, 0x38, 0x39] = 0xCBF43926 := by decide +kernel

/-- P5 (`"10110"`, w = 4, zp, s2s1: SUM2 wraps modulo 15), V-E15 (drop over a short input), V-F1 (order of the halves). -/
theorem test_fletcher :
    after (.encFletcher 4 .zp .s2s1) "10110" = some (0x01, bits "1011000001111011", 3, 5) ∧
    after (.encFletcher 4 .drop .s1s2) "1" = some (0x01, bits "00000000", 0, 1) ∧
    fletcherTrailer [1, 2] 8 .s1s2 = bits "0000001100000100" := by decide +kernel

/-- V-H11. -/
theorem test_hamming : after .encHamming "01101001110" = some (0x01, bits "100111001001110", 0, 11) := by decide +kernel

/-- V-H8, the first length past a perfect one. -/
theorem test_hamming_five : after .encHamming "10110" = some (0x01, bits "011001100", 0, 5) := by decide +kernel

/-- V-E8 and V-E3: the input check comes first. -/
theorem test_unsup3 : after .encUnsup3 "1" = some (0x25, [], 0, 1) ∧ after .encUnsup3 "" = some (0x0B, [], 0, 0) := by
  decide
theorem test_unsup4 : after (.encUnsup4 7) "1" = some (0x25, [], 0, 1) := by decide
/-- V-E6. -/
theorem test_unsup8 : after (.encUnsup8 15) "x" = some (0x13, [], 0, 1) := by decide
/-- V-E10, V-E7: BAD_WIDTH only once the input is valid. -/
theorem test_fletcher_bad_width :
    after (.encFletcher 5 .zp .s1s2) "1" = some (0x1B, [], 0, 1) ∧
    after (.encFletcher 5 .zp .s1s2) "x" = some (0x13, [], 0, 1) := by decide

/-- The host's next word runs first after reset. -/
theorem test_fetch_word :
    (match step (State.reset.withFetchWord 16 0x1031) with
      | .next t => some (t.mem.ibuf, t.stream)
      | _ => none) = some ([0x31], []) := by decide

/-- R33 and R191: a read beyond the length is refused. -/
theorem test_read_beyond :
    (match step (facing "1" (.bufRead 0 1)) with
      | .refused (.bufReadUndefined 0 1) => true
      | _ => false) = true := by decide

/-! ## Assembler (R62): the words of P4 and the named variants of P2 -/

theorem test_assemble_p4 :
    assembleWords Config.specDefault
      "CLR ; 0x0000\nenc.crc32\npush '1'\npush 0x32\n\nenc.alg 7\nenc.fletcher 5, zp, s1s2" =
    some [0x0000, 0x2000, 0x1031, 0x1032, 0x2700, 0x2114] := by decide +kernel

theorem test_assemble_named :
    assembleWords Config.specDefault "load \"10\"\nenc.fletcher-padzero 8\nenc.fletcher-droppartial 8" =
    some [0x0000, 0x1031, 0x1030, 0x2120, 0x2123] := by decide +kernel

/-! ## CRCTAB: the listing of 41_crc32.md section 2 against rule R85 -/

/-- 41_crc32.md section 2: CRCTAB[0] .. CRCTAB[31]. -/
theorem test_crcTab_listing_0 : ((List.range' 0 32).map fun n => crcTab (BitVec.ofNat 8 n)) =
  [0x00000000, 0x77073096, 0xEE0E612C, 0x990951BA, 0x076DC419, 0x706AF48F, 0xE963A535, 0x9E6495A3,
   0x0EDB8832, 0x79DCB8A4, 0xE0D5E91E, 0x97D2D988, 0x09B64C2B, 0x7EB17CBD, 0xE7B82D07, 0x90BF1D91,
   0x1DB71064, 0x6AB020F2, 0xF3B97148, 0x84BE41DE, 0x1ADAD47D, 0x6DDDE4EB, 0xF4D4B551, 0x83D385C7,
   0x136C9856, 0x646BA8C0, 0xFD62F97A, 0x8A65C9EC, 0x14015C4F, 0x63066CD9, 0xFA0F3D63, 0x8D080DF5] := by decide +kernel

/-- 41_crc32.md section 2: CRCTAB[32] .. CRCTAB[63]. -/
theorem test_crcTab_listing_32 : ((List.range' 32 32).map fun n => crcTab (BitVec.ofNat 8 n)) =
  [0x3B6E20C8, 0x4C69105E, 0xD56041E4, 0xA2677172, 0x3C03E4D1, 0x4B04D447, 0xD20D85FD, 0xA50AB56B,
   0x35B5A8FA, 0x42B2986C, 0xDBBBC9D6, 0xACBCF940, 0x32D86CE3, 0x45DF5C75, 0xDCD60DCF, 0xABD13D59,
   0x26D930AC, 0x51DE003A, 0xC8D75180, 0xBFD06116, 0x21B4F4B5, 0x56B3C423, 0xCFBA9599, 0xB8BDA50F,
   0x2802B89E, 0x5F058808, 0xC60CD9B2, 0xB10BE924, 0x2F6F7C87, 0x58684C11, 0xC1611DAB, 0xB6662D3D] := by decide +kernel

/-- 41_crc32.md section 2: CRCTAB[64] .. CRCTAB[95]. -/
theorem test_crcTab_listing_64 : ((List.range' 64 32).map fun n => crcTab (BitVec.ofNat 8 n)) =
  [0x76DC4190, 0x01DB7106, 0x98D220BC, 0xEFD5102A, 0x71B18589, 0x06B6B51F, 0x9FBFE4A5, 0xE8B8D433,
   0x7807C9A2, 0x0F00F934, 0x9609A88E, 0xE10E9818, 0x7F6A0DBB, 0x086D3D2D, 0x91646C97, 0xE6635C01,
   0x6B6B51F4, 0x1C6C6162, 0x856530D8, 0xF262004E, 0x6C0695ED, 0x1B01A57B, 0x8208F4C1, 0xF50FC457,
   0x65B0D9C6, 0x12B7E950, 0x8BBEB8EA, 0xFCB9887C, 0x62DD1DDF, 0x15DA2D49, 0x8CD37CF3, 0xFBD44C65] := by decide +kernel

/-- 41_crc32.md section 2: CRCTAB[96] .. CRCTAB[127]. -/
theorem test_crcTab_listing_96 : ((List.range' 96 32).map fun n => crcTab (BitVec.ofNat 8 n)) =
  [0x4DB26158, 0x3AB551CE, 0xA3BC0074, 0xD4BB30E2, 0x4ADFA541, 0x3DD895D7, 0xA4D1C46D, 0xD3D6F4FB,
   0x4369E96A, 0x346ED9FC, 0xAD678846, 0xDA60B8D0, 0x44042D73, 0x33031DE5, 0xAA0A4C5F, 0xDD0D7CC9,
   0x5005713C, 0x270241AA, 0xBE0B1010, 0xC90C2086, 0x5768B525, 0x206F85B3, 0xB966D409, 0xCE61E49F,
   0x5EDEF90E, 0x29D9C998, 0xB0D09822, 0xC7D7A8B4, 0x59B33D17, 0x2EB40D81, 0xB7BD5C3B, 0xC0BA6CAD] := by decide +kernel

/-- 41_crc32.md section 2: CRCTAB[128] .. CRCTAB[159]. -/
theorem test_crcTab_listing_128 : ((List.range' 128 32).map fun n => crcTab (BitVec.ofNat 8 n)) =
  [0xEDB88320, 0x9ABFB3B6, 0x03B6E20C, 0x74B1D29A, 0xEAD54739, 0x9DD277AF, 0x04DB2615, 0x73DC1683,
   0xE3630B12, 0x94643B84, 0x0D6D6A3E, 0x7A6A5AA8, 0xE40ECF0B, 0x9309FF9D, 0x0A00AE27, 0x7D079EB1,
   0xF00F9344, 0x8708A3D2, 0x1E01F268, 0x6906C2FE, 0xF762575D, 0x806567CB, 0x196C3671, 0x6E6B06E7,
   0xFED41B76, 0x89D32BE0, 0x10DA7A5A, 0x67DD4ACC, 0xF9B9DF6F, 0x8EBEEFF9, 0x17B7BE43, 0x60B08ED5] := by decide +kernel

/-- 41_crc32.md section 2: CRCTAB[160] .. CRCTAB[191]. -/
theorem test_crcTab_listing_160 : ((List.range' 160 32).map fun n => crcTab (BitVec.ofNat 8 n)) =
  [0xD6D6A3E8, 0xA1D1937E, 0x38D8C2C4, 0x4FDFF252, 0xD1BB67F1, 0xA6BC5767, 0x3FB506DD, 0x48B2364B,
   0xD80D2BDA, 0xAF0A1B4C, 0x36034AF6, 0x41047A60, 0xDF60EFC3, 0xA867DF55, 0x316E8EEF, 0x4669BE79,
   0xCB61B38C, 0xBC66831A, 0x256FD2A0, 0x5268E236, 0xCC0C7795, 0xBB0B4703, 0x220216B9, 0x5505262F,
   0xC5BA3BBE, 0xB2BD0B28, 0x2BB45A92, 0x5CB36A04, 0xC2D7FFA7, 0xB5D0CF31, 0x2CD99E8B, 0x5BDEAE1D] := by decide +kernel

/-- 41_crc32.md section 2: CRCTAB[192] .. CRCTAB[223]. -/
theorem test_crcTab_listing_192 : ((List.range' 192 32).map fun n => crcTab (BitVec.ofNat 8 n)) =
  [0x9B64C2B0, 0xEC63F226, 0x756AA39C, 0x026D930A, 0x9C0906A9, 0xEB0E363F, 0x72076785, 0x05005713,
   0x95BF4A82, 0xE2B87A14, 0x7BB12BAE, 0x0CB61B38, 0x92D28E9B, 0xE5D5BE0D, 0x7CDCEFB7, 0x0BDBDF21,
   0x86D3D2D4, 0xF1D4E242, 0x68DDB3F8, 0x1FDA836E, 0x81BE16CD, 0xF6B9265B, 0x6FB077E1, 0x18B74777,
   0x88085AE6, 0xFF0F6A70, 0x66063BCA, 0x11010B5C, 0x8F659EFF, 0xF862AE69, 0x616BFFD3, 0x166CCF45] := by decide +kernel

/-- 41_crc32.md section 2: CRCTAB[224] .. CRCTAB[255]. -/
theorem test_crcTab_listing_224 : ((List.range' 224 32).map fun n => crcTab (BitVec.ofNat 8 n)) =
  [0xA00AE278, 0xD70DD2EE, 0x4E048354, 0x3903B3C2, 0xA7672661, 0xD06016F7, 0x4969474D, 0x3E6E77DB,
   0xAED16A4A, 0xD9D65ADC, 0x40DF0B66, 0x37D83BF0, 0xA9BCAE53, 0xDEBB9EC5, 0x47B2CF7F, 0x30B5FFE9,
   0xBDBDF21C, 0xCABAC28A, 0x53B39330, 0x24B4A3A6, 0xBAD03605, 0xCDD70693, 0x54DE5729, 0x23D967BF,
   0xB3667A2E, 0xC4614AB8, 0x5D681B02, 0x2A6F2B94, 0xB40BBE37, 0xC30C8EA1, 0x5A05DF1B, 0x2D02EF8D] := by decide +kernel

/-! ## Witnesses: a state and operands that meet the hypotheses of each statement -/

/-- The next state of an outcome, or the given one. -/
def nextOr (d : State) (o : Host.Outcome State Fault Refusal) : State :=
  match o with
  | .next t => t
  | .fault _ => d
  | .refused _ => d

/-- IBUF `"1011"` encoded by ENC.HAMMING: a state whose result is valid (STATUS 0x01). -/
def encoded : State := nextOr State.reset (exec .encHamming (loaded "1011"))

/-- The same with an action waiting. -/
def encodedFacing (a : HostAction) : State := { encoded with stream := [a] }

theorem wit_validInput : validInput (loaded "10") := by
  constructor <;> decide
theorem wit_emptyInput : (loaded "").mem.ibuf = [] := by decide
theorem wit_invalidInput : (loaded "x").mem.ibuf ≠ [] ∧ ¬ validInput (loaded "x") := by
  refine ⟨by decide, fun h => ?_⟩
  have := h.2 0x78 (by decide)
  revert this
  decide

theorem wit_DecodeEncodeRoundTrip :
    (Instr.encFletcher 63 .drop .s2s1).wf = true ∧ (Instr.encUnsup4 4).wf = true ∧ (Instr.encUnsup4 7).wf = true ∧
    (Instr.encUnsup8 8).wf = true ∧ (Instr.encUnsup8 15).wf = true ∧ (Instr.push 0xFF).wf = true := by decide

theorem wit_EncodeKeepsSignificantBits :
    decode 0x1F31 = .ok (.push 0x31) ∧ encode (.push 0x31) = 0x1F31#16 &&& significantMask (.push 0x31) := by decide

theorem wit_OpcodeMapDisjointAndCovering :
    decode 0x2FFF = .ok (.encUnsup8 15) ∧ (0x2FFF : Word).toNat < 0x3000 ∧
    (encode (.encFletcher 63 .drop .s2s1)).toNat = 0x2100 + 4 * 63 + 2 + 1 ∧
    (encode (.encUnsup4 4)).toNat = 0x2400 ∧ (encode (.encUnsup8 15)).toNat = 0x2F00 := by decide

theorem wit_ReservedWordsAreRefused :
    (facing "1" (.issue 0x3000)).stream = .issue 0x3000 :: [] ∧ 0x3000 ≤ (0x3000 : Word).toNat ∧
    (facing "1" (.issue 0x2FFF)).stream = .issue 0x2FFF :: [] ∧ (0x2FFF : Word).toNat < 0x3000 := by decide

theorem wit_IgnoredFieldsHaveNoEffect :
    (opcField 0x0000 = 0 ∧ opcField 0x0FFF = 0) ∧
    (opcField 0x1031 = 1 ∧ opcField 0x1F31 = 1 ∧ symField 0x1031 = symField 0x1F31) ∧
    (opcField 0x2000 = 2 ∧ opcField 0x20FF = 2 ∧ algField 0x2000 = algField 0x20FF ∧ algField 0x2000 ≠ 1) ∧
    step (facing "1" (.issue 0x2014)) = .next (nextOr State.reset (step (facing "1" (.issue 0x2014)))) :=
  ⟨by decide, by decide, by decide, rfl⟩

theorem wit_StepRunsTheIssuedCommand :
    (facing "1" (.issue 0x2200)).stream = .issue 0x2200 :: [] ∧ decode 0x2200 = .ok .encHamming ∧
    decodeTableWord 16 0x2FFF = some (.encUnsup8 15) := by decide

theorem wit_RegisterReadsReturnTheRegisters :
    (encodedFacing (.regRead 1)).stream = .regRead 1 :: [] ∧ encoded.status.toNat = 1 ∧
    (encodedFacing (.regRead 7)).stream = .regRead 7 :: [] ∧ encoded.mem.codeword.length = 7 ∧
    (encodedFacing (.regRead 0)).stream = .regRead 0 :: [] ∧
    (encodedFacing (.regRead 8)).stream = .regRead 8 :: [] ∧ 7 < 8 := by decide

theorem wit_ReadsAnswerTheHost :
    (encodedFacing (.regRead 7)).stream = .regRead 7 :: [] ∧ regRead (encodedFacing (.regRead 7)) 7 = .ok 7 ∧
    (encodedFacing (.bufRead 4 6)).stream = .bufRead 4 6 :: [] ∧
    bufRead (encodedFacing (.bufRead 4 6)).mem 4 6 = .ok 0x31 := ⟨rfl, rfl, rfl, rfl⟩

theorem wit_BufferReadsReturnTheElements :
    (encodedFacing (.bufRead 0 3)).stream = .bufRead 0 3 :: [] ∧ 3 < encoded.mem.ibuf.length ∧
    (encodedFacing (.bufRead 4 6)).stream = .bufRead 4 6 :: [] ∧ 6 < encoded.mem.codeword.length ∧
    encoded.mem.codeword.length ≤ 7 ∧ encoded.mem.trailer.length ≤ 0 ∧
    step (encodedFacing (.bufRead 4 6)) = .next (nextOr State.reset (step (encodedFacing (.bufRead 4 6)))) :=
  ⟨by decide, by decide, by decide, by decide, by decide, by decide, rfl⟩

theorem wit_push_next : exec (.push 0x78) (loaded "1") = .next (nextOr State.reset (exec (.push 0x78) (loaded "1"))) := rfl

theorem wit_IlenReadsTheInputLength :
    exec (.push 0x30) (loaded "1") = .next (nextOr State.reset (exec (.push 0x30) (loaded "1"))) ∧
    regRead (loaded "1") 2 = .ok 1 := ⟨rfl, rfl⟩

theorem wit_ResetReachesTheResetState : (encodedFacing .reset).stream = .reset :: [] := by decide

theorem wit_OnlyCommandsAndResetChangeTheBlock :
    step (encodedFacing .reset) = .next (nextOr State.reset (step (encodedFacing .reset))) ∧
    (nextOr State.reset (step (encodedFacing .reset))).visible ≠ (encodedFacing .reset).visible :=
  ⟨rfl, by decide⟩

theorem wit_ActionsAreTakenInIssueOrder : State.reset.stream = [] ∧
    step (encodedFacing .reset) = .next (nextOr State.reset (step (encodedFacing .reset))) ∧
    step (encodedFacing (.regRead 7)) = .next (nextOr State.reset (step (encodedFacing (.regRead 7)))) := ⟨rfl, rfl, rfl⟩

theorem wit_ClrClearsEverything :
    opcField 0x0FFF = 0 ∧ State.reset.visible = State.reset.visible ∧
    exec .clr encoded = .next (nextOr State.reset (exec .clr encoded)) ∧ Instr.push 0x30 ≠ .clr ∧
    exec (.push 0x30) encoded = .next (nextOr State.reset (exec (.push 0x30) encoded)) :=
  ⟨by decide, rfl, rfl, by decide, rfl⟩

/-- `loaded` with a finite capacity. -/
def capped (s : String) (n : Nat) : State := { loaded s with config := { Config.specDefault with cap := some n } }

theorem wit_PushAppendsOneSymbol :
    (∀ n, (capped "1" 2).config.cap = some n → (capped "1" 2).mem.ibuf.length < n) ∧
    (capped "1" 1).config.cap = some 1 ∧ 1 ≤ (capped "1" 1).mem.ibuf.length ∧ opcField 0x1FFF = 1 := by
  refine ⟨fun n h => ?_, rfl, by decide, by decide⟩
  have : n = 2 := by simpa [capped] using h.symm
  subst this
  decide

theorem wit_PushFrame :
    exec (.push 0x78) encoded = .next (nextOr State.reset (exec (.push 0x78) encoded)) ∧
    ¬ (4 = 0 ∧ 6 = encoded.mem.ibuf.length) := ⟨rfl, by decide⟩

theorem wit_NonbinarySymbolPoisonsTheInput :
    step (facing "x" (.issue 0x1031)) = .next (nextOr State.reset (step (facing "x" (.issue 0x1031)))) ∧
    ¬ issues (facing "x" (.issue 0x1031)) .clr ∧ (∀ rest, (facing "x" (.issue 0x1031)).stream ≠ .reset :: rest) ∧
    isEnc (.encUnsup8 15) = true ∧ ∃ c ∈ (loaded "x").mem.ibuf, c ≠ 0x30 ∧ c ≠ 0x31 := by
  refine ⟨rfl, ?_, ?_, by decide, 0x78, by decide, by decide⟩
  · rw [issues_iff (w := 0x1031) (rest := []) rfl]
    decide
  · intro rest h
    simp [facing] at h

theorem wit_EncReportsTheFirstError : isEnc (.encFletcher 5 .zp .s1s2) = true := by decide

theorem wit_ErrorEntryEmptiesTheRecord :
    isEnc .encHamming = true ∧ reports .encHamming (loaded "") (some (.invalidInput, .emptyInput)) ∧
    reports (.encFletcher 5 .zp .s1s2) (loaded "x") (some (.invalidInput, .nonbinarySymbol)) ∧
    reports (.encFletcher 5 .zp .s1s2) (loaded "10") (some (.invalidInput, .badWidth)) ∧
    reports .encUnsup3 (loaded "10") (some (.unsupportedScheme, .unknownAlgorithm)) := by
  refine ⟨by decide, .inl ⟨by decide, rfl⟩, .inr (.inl ⟨wit_invalidInput.1, wit_invalidInput.2, rfl⟩), ?_, ?_⟩
  · exact .inr (.inr (.inr (.inl ⟨wit_validInput, ⟨5, .zp, .s1s2, rfl, by unfold widthAllowed; decide⟩, rfl⟩)))
  · exact .inr (.inr (.inl ⟨wit_validInput, rfl, rfl⟩))

theorem wit_ErrorsComeOnlyFromEnc :
    step (facing "" (.issue 0x2000)) = .next (nextOr State.reset (step (facing "" (.issue 0x2000)))) ∧
    (nextOr State.reset (step (facing "" (.issue 0x2000)))).status ≠ (facing "" (.issue 0x2000)).status ∧
    statusErr (nextOr State.reset (step (facing "" (.issue 0x2000)))).status ≠ 0 ∧
    isEnc .clr = false ∧ isEnc .encCrc32 = true ∧ encoded.mem.ibuf = (loaded "1011").mem.ibuf ∧
    exec .encHamming encoded = .next (nextOr State.reset (exec .encHamming encoded)) :=
  ⟨rfl, by decide, by decide, by decide, by decide, by decide, rfl⟩

/-- A step that is neither an ENC nor CLR nor reset: PUSH over a finished encode. -/
theorem wit_neither_enc_nor_clr :
    step (encodedFacing (.issue 0x1030)) = .next (nextOr State.reset (step (encodedFacing (.issue 0x1030)))) ∧
    ¬ issues (encodedFacing (.issue 0x1030)) .clr ∧
    (∀ i, isEnc i = true → ¬ issues (encodedFacing (.issue 0x1030)) i) ∧
    (∀ rest, (encodedFacing (.issue 0x1030)).stream ≠ .reset :: rest) := by
  refine ⟨rfl, ?_, ?_, ?_⟩
  · rw [issues_iff (w := 0x1030) (rest := []) rfl]
    decide
  · intro i hi
    rw [issues_iff (w := 0x1030) (rest := []) rfl]
    intro h
    have hd : decode 0x1030 = .ok (.push 0x30) := by decide
    rw [hd, Except.ok.injEq] at h
    subst h
    revert hi
    decide
  · intro rest h
    simp [encodedFacing] at h

theorem wit_ErrorStateLastsAndBlocksNothing : isEnc .encCrc32 = true ∧
    exec (.push 0x30) encoded = .next (nextOr State.reset (exec (.push 0x30) encoded)) ∧
    step (encodedFacing (.issue 0x1030)) = .next (nextOr State.reset (step (encodedFacing (.issue 0x1030)))) :=
  ⟨by decide, rfl, wit_neither_enc_nor_clr.1⟩

theorem wit_EncIsDeterministic : isEnc .encHamming = true ∧ encoded.mem.ibuf = (loaded "1011").mem.ibuf ∧
    exec .encHamming encoded = .next (nextOr State.reset (exec .encHamming encoded)) := ⟨by decide, by decide, rfl⟩

theorem wit_EncFrame : isEnc (.encUnsup4 7) = true ∧ isEnc (.encFletcher 8 .drop .s2s1) = true := by decide

theorem wit_OrigIsTheInputAsPushed : isEnc .encHamming = true ∧ exec .encHamming (loaded "1011") = .next encoded ∧
    encoded.status = 0x01 := ⟨by decide, rfl, by decide⟩

theorem wit_EncCrc32Result : validInput (loaded "10") ∧ (loaded "").mem.ibuf = [] ∧
    (loaded "x").mem.ibuf ≠ [] ∧ ¬ validInput (loaded "x") :=
  ⟨wit_validInput, wit_emptyInput, wit_invalidInput⟩

theorem wit_EncFletcherResult : validInput (loaded "10") ∧ widthAllowed 4 ∧ widthAllowed 32 ∧ ¬ widthAllowed 0 ∧
    ¬ widthAllowed 33 ∧ (loaded "10").mem.ibuf.length < 4 ∧ (loaded "").mem.ibuf = [] ∧
    (loaded "x").mem.ibuf ≠ [] ∧ ¬ validInput (loaded "x") := by
  refine ⟨wit_validInput, ?_, ?_, ?_, ?_, by decide, wit_emptyInput, wit_invalidInput⟩ <;>
    · unfold widthAllowed
      decide

theorem wit_EncHammingResult : validInput (loaded "10") ∧ (loaded "").mem.ibuf = [] ∧
    (loaded "x").mem.ibuf ≠ [] ∧ ¬ validInput (loaded "x") :=
  ⟨wit_validInput, wit_emptyInput, wit_invalidInput⟩

theorem wit_EncUnsupRaises : isUnsup .encUnsup3 = true ∧ isUnsup (.encUnsup4 4) = true ∧ isUnsup (.encUnsup8 15) = true ∧
    0x2300 ≤ (0x2300 : Word).toNat ∧ (0x2FFF : Word).toNat ≤ 0x2FFF := by decide

theorem wit_CodewordLengths : validInput (loaded "10") ∧ 2 = (loaded "10").mem.ibuf.length ∧ widthAllowed 8 ∧
    2 + 3 + 1 ≤ 2 ^ 3 := by
  refine ⟨wit_validInput, by decide, ?_, by decide⟩
  unfold widthAllowed
  decide

/-- The state after one command over a written input. -/
def result (i : Instr) (s : String) : State := nextOr State.reset (exec i (loaded s))

theorem wit_PadcntHoldsThePadCount :
    (exec .encCrc32 (loaded "1") = .next (result .encCrc32 "1") ∧ (result .encCrc32 "1").status = 0x01) ∧
    (exec (.encFletcher 32 .zp .s1s2) (loaded "1") = .next (result (.encFletcher 32 .zp .s1s2) "1") ∧
      (result (.encFletcher 32 .zp .s1s2) "1").status = 0x01) ∧
    (isEnc (.encFletcher 5 .zp .s1s2) = true ∧
      exec (.encFletcher 5 .zp .s1s2) (loaded "1") = .next (result (.encFletcher 5 .zp .s1s2) "1") ∧
      (result (.encFletcher 5 .zp .s1s2) "1").status ≠ 0x01) ∧
    exec (.push 0x31) { loaded "1" with padcnt := 31 } = .next { result (.push 0x31) "1" with padcnt := 31 } :=
  ⟨⟨rfl, by decide +kernel⟩, ⟨rfl, by decide +kernel⟩, ⟨by decide, rfl, by decide⟩, rfl⟩

theorem wit_ZeroPadPolicy : 0 < 32 ∧ (bits "1").length % 32 ≠ 0 ∧ (bits "10101010").length % 8 = 0 ∧
    encodeFletcher 4 .zp .s1s2 (bits "10110") = .ok ⟨bits "10110000", bits "10110111", bits "1011000010110111", 3⟩ := by
  decide

theorem wit_DropPolicy : 0 < 4 ∧ (bits "101").length < 4 ∧ (bits "1011").length % 4 = 0 ∧
    encodeFletcher 4 .drop .s1s2 (bits "10110") = .ok ⟨bits "1011", bits "10111011", bits "101110111011", 0⟩ := by decide

theorem wit_RenderInvertsBlockValue : 15 < 2 ^ 4 ∧ 0 < 2 ^ 4 := by decide

theorem wit_WidthCheckGuardsBlocks : ¬ widthAllowed 5 ∧ widthAllowed 16 ∧ validInput (loaded "10") := by
  refine ⟨?_, ?_, wit_validInput⟩ <;>
    · unfold widthAllowed
      decide

/-- V-B5 and V-B6. -/
theorem wit_BlocksPartitionThePaddedString :
    toBlocks (bits "10110") 4 .zp = .ok ⟨[11, 0], bits "10110000", 3⟩ ∧
    toBlocks (bits "10110") 4 .drop = .ok ⟨[11], bits "1011", 0⟩ := by decide

theorem wit_CrcTableEntries : (crcShift^[8]) 1 = 0x77073096 ∧ (crcShift^[1]) 1 = 0xEDB88320 := by decide

theorem wit_Crc32Accumulates : 255 < 256 ∧ (0xFFFFFFFF : U32) = crc32 [] ^^^ 0xFFFFFFFF := by decide

theorem wit_CrcIgnoresZerosThatFillTheLastByte :
    (bits "0").length + 7 ≤ ((bits "0").length + 7) / 8 * 8 := by decide

theorem wit_FletcherRunningSums : widthAllowed 4 ∧ 15 = 2 ^ 4 - 1 := by
  unfold widthAllowed
  decide

theorem wit_FletcherSumsClosedForm : widthAllowed 32 := by
  unfold widthAllowed
  decide

theorem wit_FletcherAdditionsFitOneMoreBit : widthAllowed 4 ∧ 15 = 2 ^ 4 - 1 ∧ 15 < 2 ^ 4 ∧ 29 ≤ 2 * 15 - 1 := by
  unfold widthAllowed
  decide

theorem wit_FletcherCornerCases : widthAllowed 4 ∧ (bits "101").length < 4 ∧ (bits "1011").length % 4 = 0 ∧
    (fletcherSums [11] 4).sum1 = (fletcherSums [11] 4).sum2 := by
  unfold widthAllowed
  decide

theorem wit_HammingParityCountIsMinimal : 3 = hammingR 4 ∧ 2 < 3 ∧ 1 ≤ 4 := by decide

theorem wit_HammingPositionsSplit : 1 ≤ 1 ∧ 2 = hammingR 1 := by decide

theorem wit_HammingPlacementKeepsDataOrder :
    bits "1011" ≠ [] ∧ 7 = (bits "1011").length + hammingR (bits "1011").length ∧ isPow2 4 = true := by decide

/-- S5. -/
theorem wit_HammingCodewordHasEvenParity :
    bits "1011" ≠ [] ∧ 7 = (bits "1011").length + hammingR (bits "1011").length ∧
    hamming (bits "1011") = .ok (bits "0110011") ∧ 2 < hammingR (bits "1011").length := by decide

theorem wit_HammingSyndromeLocatesOneError :
    bits "1011" ≠ [] ∧ hamming (bits "1011") = .ok (bits "0110011") ∧ 7 = (bits "0110011").length ∧
    2 < hammingR (bits "1011").length := by decide

theorem wit_HammingCornerCases : 1 ≤ 1 ∧ 2 ≤ 2 ∧ 1 + 2 + 1 = 2 ^ 2 ∧ 248 ≤ 502 ∧ 502 ≤ 502 := by decide

theorem wit_HammingFailsOnlyOnEmptyInput : bits "1" ≠ [] ∧ validInput (loaded "10") ∧ isEnc .encHamming = true ∧
    (loaded "").mem.ibuf = [] := ⟨by decide, wit_validInput, by decide, wit_emptyInput⟩

/-- A good state with a valid result, and a step from it. -/
theorem wit_StepKeepsInv (a : HostAction) : Inv (encodedFacing a) := by
  refine ⟨rfl, by change encoded.status ∈ statusValues; decide, fun h => absurd rfl h, fun _ => ?_⟩
  exact ⟨.encHamming, rfl, encodeHamming, rfl, by change encoded.mem.orig ≠ []; decide, rfl⟩

theorem wit_StepKeepsInv_steps :
    Inv (encodedFacing (.issue 0x2014)) ∧
    step (encodedFacing (.issue 0x2014)) = .next (nextOr State.reset (step (encodedFacing (.issue 0x2014)))) :=
  ⟨wit_StepKeepsInv _, rfl⟩

theorem wit_GoodRecordsAreConsistent : Inv (encodedFacing .reset) ∧ (encodedFacing .reset).status = 0x01 :=
  ⟨wit_StepKeepsInv _, rfl⟩

theorem wit_PseudoInstructionsExpand : 3 ≤ 3 ∧ 15 ≤ 15 ∧ expandLine Config.specDefault (.encAlg 3) = [.encUnsup3] ∧
    expandLine Config.specDefault (.encAlg 15) = [.encUnsup8 15] := by decide

end Sys2Proof.Tests
end

section
/-! PROOFS. The state: ILEN (R15), PADCNT (R16) and the reset state (R23). -/

namespace Sys2Proof.Machine

/-! ## The dispatch -/

/-- Every encode command goes on, with the state its engine makes (R132). -/
theorem exec_eq_encodeWith {i : Instr} {engine : BitString → Except EceError EncodeResult}
    (h : engineOf i = some engine) (s : State) : exec i s = .next (encodeWith engine s) := by
  cases i <;> cases h <;> rfl

theorem exec_clr (s : State) : exec .clr s = .next (clearAll s) := rfl

/-- A PUSH that goes on had room and appended its symbol (R131). -/
theorem eq_appendSymbol_of_exec_push {c : Symbol} {s t : State} (h : exec (.push c) s = .next t) :
    t = appendSymbol c s := by
  change execPush c s = .next t at h
  obtain ⟨_, hp⟩ | ⟨_, hp⟩ := execPush_cases c s <;> rw [hp] at h
  · exact (Host.Outcome.next.inj h).symm
  · cases h

/-- Everything a command that goes on can do: clear, append a symbol, or encode. -/
theorem exec_cases {i : Instr} {s t : State} (h : exec i s = .next t) :
    (i = .clr ∧ t = clearAll s) ∨
    (∃ c, i = .push c ∧ t = appendSymbol c s) ∨
    (∃ engine, engineOf i = some engine ∧ t = encodeWith engine s) := by
  cases he : engineOf i with
  | some engine =>
    rw [exec_eq_encodeWith he] at h
    exact .inr (.inr ⟨engine, rfl, (Host.Outcome.next.inj h).symm⟩)
  | none =>
    cases i with
    | clr => exact .inl ⟨rfl, (Host.Outcome.next.inj h).symm⟩
    | push c => exact .inr (.inl ⟨c, rfl, eq_appendSymbol_of_exec_push h⟩)
    | _ => cases he

/-! ## The pad counts of the engines -/

theorem padZero_snd (bits : BitString) {w : Nat} (hw : 0 < w) :
    (padZero bits w).2 = (w - bits.length % w) % w := by
  have hlt : bits.length % w < w := Nat.mod_lt _ hw
  by_cases h : bits.length % w = 0
  · simp [padZero, h]
  · simp only [padZero, if_neg h]
    exact (Nat.mod_eq_of_lt (by omega)).symm

theorem padCount_of_encodeCrc32 {bits : BitString} {r : EncodeResult} (h : encodeCrc32 bits = .ok r) :
    r.padCount = (padZero bits 8).2 := by
  rw [encodeCrc32, toBlocks_legal (by decide)] at h
  cases h
  rfl

/-- An ENC.FLETCHER run that answers had a legal width, and its pad count is the policy's (R75, R105). -/
theorem padCount_of_encodeFletcher {w : Nat} {pad : PadPolicy} {ord : TrailerOrder} {bits : BitString}
    {r : EncodeResult} (h : encodeFletcher w pad ord bits = .ok r) :
    legalWidth w = true ∧ r.padCount = (applyPolicy pad bits w).2 := by
  cases hw : legalWidth w with
  | true =>
    rw [encodeFletcher, toBlocks_legal hw] at h
    cases h
    exact ⟨rfl, rfl⟩
  | false =>
    rw [encodeFletcher, toBlocks_illegal hw] at h
    cases h

theorem padCount_of_encodeHamming {bits : BitString} {r : EncodeResult} (h : encodeHamming bits = .ok r) :
    r.padCount = 0 := by
  unfold encodeHamming at h
  split at h <;> cases h
  rfl

/-! ## PADCNT after an encode command -/

/-- The ERR field tells a reported error from a result (R14, R156). -/
theorem statusOfError_ne_result (e : EceError) : statusOfError e ≠ 0x01 := by
  obtain ⟨kind, cause⟩ := e
  cases kind <;> cases cause <;> decide

theorem length_of_inputBits {l : List Symbol} {bits : BitString} (h : inputBits l = .ok bits) :
    bits.length = l.length := by
  obtain ⟨_, hl⟩ | ⟨_, _, hl⟩ | ⟨_, _, hl⟩ := inputBits_cases l <;> rw [hl] at h <;> cases h
  exact List.length_map _

/-- STATUS 0x01 after an ENC: its engine answered, and PADCNT holds the pad count of the answer (R132 step 3). -/
theorem encodeWith_padcnt_of_result {engine : BitString → Except EceError EncodeResult} {s : State}
    (h : (encodeWith engine s).status = 0x01) :
    ∃ bits r, bits.length = s.mem.ibuf.length ∧ engine bits = .ok r ∧
      (encodeWith engine s).padcnt = BitVec.ofNat 5 r.padCount := by
  obtain ⟨bits, r, hin, hr, he⟩ | ⟨e, _, he⟩ := encodeWith_cases engine s <;> rw [he] at h ⊢
  · exact ⟨bits, r, length_of_inputBits hin, hr, rfl⟩
  · exact absurd h (statusOfError_ne_result e)

theorem encodeWith_padcnt_of_error {engine : BitString → Except EceError EncodeResult} {s : State}
    (h : (encodeWith engine s).status ≠ 0x01) : (encodeWith engine s).padcnt = 0 := by
  obtain ⟨_, _, _, _, he⟩ | ⟨_, _, he⟩ := encodeWith_cases engine s <;> rw [he] at h ⊢
  · exact absurd statusResult_eq h
  · rfl

/-- An engine that never pads leaves PADCNT 0, whether or not it reports an error. -/
theorem encodeWith_padcnt_eq_zero {engine : BitString → Except EceError EncodeResult}
    (hk : ∀ bits r, engine bits = .ok r → r.padCount = 0) (s : State) : (encodeWith engine s).padcnt = 0 := by
  by_cases h : (encodeWith engine s).status = 0x01
  · obtain ⟨bits, r, _, hr, hp⟩ := encodeWith_padcnt_of_result h
    rw [hp, hk bits r hr]
    rfl
  · exact encodeWith_padcnt_of_error h

/-- A zero-pad engine of width `w` leaves in PADCNT the zeros that complete the last block; 5 bits hold them for every
legal width (R16, R71). -/
theorem encodeWith_padcnt_of_zeroPad {engine : BitString → Except EceError EncodeResult} {w : Nat}
    (hk : ∀ bits r, engine bits = .ok r → legalWidth w = true ∧ r.padCount = (padZero bits w).2) {s : State}
    (h : (encodeWith engine s).status = 0x01) :
    (encodeWith engine s).padcnt.toNat = (w - s.mem.ibuf.length % w) % w := by
  obtain ⟨bits, r, hlen, hr, hp⟩ := encodeWith_padcnt_of_result h
  obtain ⟨hlegal, hcount⟩ := hk bits r hr
  have hw : 0 < w ∧ w ≤ 32 := by
    rw [legalWidth_iff] at hlegal
    omega
  have hlt : (w - s.mem.ibuf.length % w) % w < w := Nat.mod_lt _ hw.1
  rw [hp, hcount, padZero_snd bits hw.1, hlen, BitVec.toNat_ofNat]
  exact Nat.mod_eq_of_lt (by omega)

/-! ## PADCNT before a command -/

/-- Commit and error entry both overwrite PADCNT, and neither the input nor the engine reads it (R132, R158). -/
theorem encodeWith_setPadcnt (engine : BitString → Except EceError EncodeResult) (s : State) (v : BitVec 5) :
    encodeWith engine { s with padcnt := v } = encodeWith engine s := by
  unfold encodeWith
  cases inputBits s.mem.ibuf with
  | error e => rfl
  | ok bits => cases hr : engine bits <;> simp only [hr] <;> rfl

theorem exec_setPadcnt {i : Instr} {s t t' : State} {v : BitVec 5} (h : exec i s = .next t)
    (h' : exec i { s with padcnt := v } = .next t') : { t' with padcnt := t.padcnt } = t := by
  obtain ⟨rfl, rfl⟩ | ⟨c, rfl, rfl⟩ | ⟨engine, he, rfl⟩ := exec_cases h
  · cases h'
    rfl
  · rw [eq_appendSymbol_of_exec_push h']
    rfl
  · rw [exec_eq_encodeWith he, encodeWith_setPadcnt] at h'
    cases h'
    rfl

end Sys2Proof.Machine

namespace Sys2Proof

open Machine

/-- Settles O32: PADCNT is a matter of the engine's pad count alone, 0 on error entry, and no operation reads it. -/
theorem padcntHoldsThePadCount : Obligations.PadcntHoldsThePadCount := by
  refine ⟨?crc32, ?zeroPad, ?drop, ?hamming, ?error, ?clr, reset_padcnt, fun i s t t' v => exec_setPadcnt⟩
  case crc32 =>
    intro s t h hst
    cases h
    exact encodeWith_padcnt_of_zeroPad (fun _ _ hr => ⟨by decide, padCount_of_encodeCrc32 hr⟩) hst
  case zeroPad =>
    intro s t w o h hst
    cases h
    exact encodeWith_padcnt_of_zeroPad (fun _ _ hr => padCount_of_encodeFletcher hr) hst
  case drop =>
    intro s t w o h
    cases h
    exact encodeWith_padcnt_eq_zero (engine := encodeFletcher w .drop o)
      (fun _ _ hr => (padCount_of_encodeFletcher hr).2) s
  case hamming =>
    intro s t h
    cases h
    exact encodeWith_padcnt_eq_zero (fun _ _ hr => padCount_of_encodeHamming hr) s
  case error =>
    intro i s t hi h hst
    obtain ⟨engine, he⟩ := Option.isSome_iff_exists.mp hi
    rw [exec_eq_encodeWith he] at h
    cases h
    exact encodeWith_padcnt_of_error hst
  case clr =>
    intro s t h
    cases h
    exact clearAll_padcnt s

/-- Settles O11: ILEN is computed from IBUF, which reset and CLR empty and PUSH extends by one symbol. -/
theorem ilenReadsTheInputLength : Obligations.IlenReadsTheInputLength := by
  refine ⟨fun _ => rfl, rfl, fun s => ⟨clearAll s, exec_clr s, rfl⟩, fun s t c h => ?_⟩
  rw [eq_appendSymbol_of_exec_push h]
  simp [regRead]

/-- CLR and reset leave the same visible state (R23, R130). -/
theorem clearAll_visible (s : State) : (clearAll s).visible = State.reset.visible := by
  simp [State.visible]

theorem assertReset_visible (s : State) : (assertReset s).visible = State.reset.visible := rfl

/-- The length registers, 2 and 4 .. 7, read 0 at reset, where every buffer is empty (R15, R17, R23). -/
theorem regRead_reset_length {n : Nat} (h : n = 2 ∨ 4 ≤ n ∧ n ≤ 7) : regRead State.reset n = .ok 0 := by
  obtain rfl | ⟨hlo, hhi⟩ := h
  · rfl
  · interval_cases n <;> rfl

/-- Settles O12: the reset state field by field, and the visible state that reset and CLR leave from any state. -/
theorem resetReachesTheResetState : Obligations.ResetReachesTheResetState := by
  refine ⟨rfl, reset_padcnt, reset_status, fun n => regRead_reset_length, by decide, by decide, by decide,
    fun n => rfl, fun s rest h => ?reset, fun s => ⟨clearAll s, exec_clr s, clearAll_visible s⟩⟩
  case reset => exact ⟨_, step_cons h, assertReset_visible _⟩

end Sys2Proof
end

section
/-! PROOFS. The buffer space: what `BufRead` answers (R33). -/

namespace Sys2Proof.Machine

/-! ## The read port -/

/-- The four result buffers show their bits as symbols (R30, R33). -/
theorem bufferSymbols_of_bits {m : Memory} {b : Nat} {l : BitString}
    (h : (b, l) ∈ [(1, m.orig), (2, m.padded), (3, m.trailer), (4, m.codeword)]) :
    bufferSymbols m b = some (l.map symbolOfBit) := by
  simp only [List.mem_cons, List.not_mem_nil, or_false, Prod.mk.injEq] at h
  obtain ⟨rfl, rfl⟩ | ⟨rfl, rfl⟩ | ⟨rfl, rfl⟩ | ⟨rfl, rfl⟩ := h <;> rfl

/-- There are five buffers, 0 to 4 (R30). -/
theorem bufferSymbols_eq_none {b : Nat} (h : 4 < b) (m : Memory) : bufferSymbols m b = none := by
  obtain ⟨k, rfl⟩ := Nat.exists_eq_add_of_le' h
  rfl

theorem bufRead_of_lt {m : Memory} {b i : Nat} {l : List Symbol} (hb : bufferSymbols m b = some l)
    (h : i < l.length) : bufRead m b i = .ok l[i] :=
  bufRead_eq_ok.mpr ⟨l, hb, List.getElem?_eq_getElem h⟩

theorem bufRead_of_length_le {m : Memory} {b i : Nat} {l : List Symbol} (hb : bufferSymbols m b = some l)
    (h : l.length ≤ i) : bufRead m b i = .error (.bufReadUndefined b i) := by
  refine bufRead_eq_error fun l' hb' => ?_
  cases hb.symm.trans hb'
  exact List.getElem?_eq_none h

theorem bufRead_of_no_buffer {b : Nat} (h : 4 < b) (m : Memory) (i : Nat) :
    bufRead m b i = .error (.bufReadUndefined b i) :=
  bufRead_eq_error fun l hl => by simp [bufferSymbols_eq_none h m] at hl

/-! ## The read as the host's action -/

theorem step_refused_of_bufRead {s : State} {b i : Nat} {rest : List HostAction} {r : Refusal}
    (hs : s.stream = .bufRead b i :: rest) (hr : bufRead s.mem b i = .error r) : step s = .refused r := by
  rw [step_cons hs]
  simp [perform, performBufRead, hr]

/-- A `BufRead` that goes on takes the action from the stream and adds one reply: the block is as it was (R33). -/
theorem visible_of_step_bufRead {s t : State} {b i : Nat} {rest : List HostAction}
    (hs : s.stream = .bufRead b i :: rest) (h : step s = .next t) : t.visible = s.visible := by
  rw [step_cons hs] at h
  obtain ⟨w, j, ha, _⟩ | ⟨r, rfl, _⟩ | ⟨ha, _⟩ := perform_cases h
  · cases ha
  · rfl
  · cases ha

theorem mem_eq_of_visible_eq {s t : State} (h : t.visible = s.visible) : t.mem = s.mem :=
  congrArg Visible.mem h

end Sys2Proof.Machine

namespace Sys2Proof

open Machine

/-- Settles O9: each buffer is read as its list of symbols, and what lies outside that list has no answer. -/
theorem bufferReadsReturnTheElements : Obligations.BufferReadsReturnTheElements := by
  refine ⟨fun m i h => bufRead_of_lt rfl h, ?bits, fun s b i rest hs => ⟨?ibufEnd, ?bitsEnd, ?noBuffer, ?frame⟩⟩
  case bits =>
    intro m b i l hl h
    rw [bufRead_of_lt (bufferSymbols_of_bits hl) (by simpa using h), List.getElem_map]
    rfl
  case ibufEnd =>
    rintro rfl hi
    exact step_refused_of_bufRead hs (bufRead_of_length_le rfl hi)
  case bitsEnd =>
    intro l hl hi
    exact step_refused_of_bufRead hs (bufRead_of_length_le (bufferSymbols_of_bits hl) (by simpa using hi))
  case noBuffer =>
    intro hb
    exact step_refused_of_bufRead hs (bufRead_of_no_buffer hb s.mem i)
  case frame =>
    intro t ht
    have hv := visible_of_step_bufRead hs ht
    exact ⟨hv, by rw [mem_eq_of_visible_eq hv]⟩

end Sys2Proof
end

section
/-! PROOFS. The encoding: fields, decoder and opcode map (R59 to R61). -/

namespace Sys2Proof

/-! ## The fields as arithmetic on the word -/

theorem opcField_eq_div (w : Word) : opcField w = w.toNat / 0x1000 := by
  have hw := w.isLt
  rw [opcField, BitVec.extractLsb'_toNat, Nat.shiftRight_eq_div_pow]
  omega

theorem algField_eq_mod (w : Word) : algField w = w.toNat / 0x100 % 16 := by
  rw [algField, BitVec.extractLsb'_toNat, Nat.shiftRight_eq_div_pow]

/-! ## The decoder, one equation per OPC (R51) and per ALG (R55) -/

theorem decode_of_opc_zero {w : Word} (h : opcField w = 0) : decode w = .ok .clr := by
  simp [decode, h]

theorem decode_of_opc_one {w : Word} (h : opcField w = 1) : decode w = .ok (.push (symField w)) := by
  simp [decode, h]

theorem decode_of_opc_two {w : Word} (h : opcField w = 2) : decode w = .ok (decodeEnc w) := by
  simp [decode, h]

theorem decode_of_reserved {w : Word} (h : 3 ≤ opcField w) :
    decode w = .error (.reservedOpcode (opcField w)) := by
  simp [decode, show opcField w ≠ 0 by omega, show opcField w ≠ 1 by omega, show opcField w ≠ 2 by omega]

/-- Every word is a CLR, a PUSH, an ENC or reserved (R51, R59). -/
theorem decode_cases (w : Word) :
    (opcField w = 0 ∧ decode w = .ok .clr) ∨
    (opcField w = 1 ∧ decode w = .ok (.push (symField w))) ∨
    (opcField w = 2 ∧ decode w = .ok (decodeEnc w)) ∨
    (3 ≤ opcField w ∧ decode w = .error (.reservedOpcode (opcField w))) := by
  obtain h | h | h | h : opcField w = 0 ∨ opcField w = 1 ∨ opcField w = 2 ∨ 3 ≤ opcField w := by omega
  · exact .inl ⟨h, decode_of_opc_zero h⟩
  · exact .inr (.inl ⟨h, decode_of_opc_one h⟩)
  · exact .inr (.inr (.inl ⟨h, decode_of_opc_two h⟩))
  · exact .inr (.inr (.inr ⟨h, decode_of_reserved h⟩))

theorem exists_decode_of_opc_lt {w : Word} (h : opcField w < 3) : ∃ i, decode w = .ok i := by
  obtain ⟨_, hd⟩ | ⟨_, hd⟩ | ⟨_, hd⟩ | ⟨ho, _⟩ := decode_cases w
  · exact ⟨_, hd⟩
  · exact ⟨_, hd⟩
  · exact ⟨_, hd⟩
  · omega

/-- Every ALG value selects one encode command (R55, R136). -/
theorem decodeEnc_cases (w : Word) :
    (algField w = 0 ∧ decodeEnc w = .encCrc32) ∨
    (algField w = 1 ∧ decodeEnc w = .encFletcher (widthField w) (padField w) (ordField w)) ∨
    (algField w = 2 ∧ decodeEnc w = .encHamming) ∨
    (algField w = 3 ∧ decodeEnc w = .encUnsup3) ∨
    (4 ≤ algField w ∧ algField w < 8 ∧ decodeEnc w = .encUnsup4 (algField w)) ∨
    (8 ≤ algField w ∧ algField w < 16 ∧ decodeEnc w = .encUnsup8 (algField w)) := by
  have hlt : algField w < 16 := BitVec.isLt _
  obtain h | h | h | h | ⟨hlo, hhi⟩ | h : algField w = 0 ∨ algField w = 1 ∨ algField w = 2 ∨ algField w = 3 ∨
      (4 ≤ algField w ∧ algField w < 8) ∨ 8 ≤ algField w := by omega
  · exact .inl ⟨h, by simp [decodeEnc, h]⟩
  · exact .inr (.inl ⟨h, by simp [decodeEnc, h]⟩)
  · exact .inr (.inr (.inl ⟨h, by simp [decodeEnc, h]⟩))
  · exact .inr (.inr (.inr (.inl ⟨h, by simp [decodeEnc, h]⟩)))
  · have hne : algField w ≠ 0 ∧ algField w ≠ 1 ∧ algField w ≠ 2 ∧ algField w ≠ 3 := by omega
    exact .inr (.inr (.inr (.inr (.inl ⟨hlo, hhi, by simp [decodeEnc, hne, hhi]⟩))))
  · have hne : algField w ≠ 0 ∧ algField w ≠ 1 ∧ algField w ≠ 2 ∧ algField w ≠ 3 := by omega
    exact .inr (.inr (.inr (.inr (.inr ⟨h, hlt, by simp [decodeEnc, hne, h]⟩))))

/-- Only ALG = 1 looks at the bits below ALG (R60). -/
theorem decodeEnc_congr {w v : Word} (h : algField w = algField v) (hne : algField w ≠ 1) :
    decodeEnc w = decodeEnc v := by
  have hv : algField v ≠ 1 := h ▸ hne
  simp [decodeEnc, h, hv]

/-! ## A row of the opcode map is an interval of words -/

/-- How many words a row with a mask of leading ones selects. -/
def OpcodeRow.wordCount (r : OpcodeRow) : Nat := 2 ^ 16 - r.mask.toNat

theorem toNat_and_leadingOnes {n : Nat} (w : BitVec n) (k : Nat) :
    (w &&& BitVec.allOnes n <<< k).toNat = w.toNat / 2 ^ k * 2 ^ k := by
  have hle : w.toNat / 2 ^ k * 2 ^ k ≤ w.toNat := Nat.div_mul_le_self _ _
  rw [← BitVec.shiftLeft_ushiftRight, BitVec.toNat_shiftLeft, BitVec.toNat_ushiftRight,
    Nat.shiftRight_eq_div_pow, Nat.shiftLeft_eq, Nat.mod_eq_of_lt (by omega)]

theorem and_leadingOnes_eq_iff {n k : Nat} {p : BitVec n} (hp : 2 ^ k ∣ p.toNat) (w : BitVec n) :
    w &&& BitVec.allOnes n <<< k = p ↔ p.toNat ≤ w.toNat ∧ w.toNat < p.toNat + 2 ^ k := by
  obtain ⟨q, hq⟩ := hp
  have hpos : 0 < 2 ^ k := Nat.two_pow_pos k
  rw [← BitVec.toNat_inj, toNat_and_leadingOnes, hq, Nat.mul_comm, Nat.mul_right_inj hpos.ne',
    Nat.div_eq_iff hpos, Nat.mul_comm q]
  omega

/-- Each mask of the map is leading ones, and the pattern has no bit outside it (R61). -/
theorem mask_of_mem_opcodeTable : ∀ r ∈ opcodeTable, ∃ k < 16,
    r.mask = BitVec.allOnes 16 <<< k ∧ r.wordCount = 2 ^ k ∧ 2 ^ k ∣ r.pattern.toNat := by decide

theorem selects_iff_interval {r : OpcodeRow} (hr : r ∈ opcodeTable) (w : Word) :
    w &&& r.mask = r.pattern ↔ r.pattern.toNat ≤ w.toNat ∧ w.toNat < r.pattern.toNat + r.wordCount := by
  obtain ⟨k, -, hmask, hcount, hdvd⟩ := mask_of_mem_opcodeTable r hr
  rw [hmask, hcount]
  exact and_leadingOnes_eq_iff hdvd w

/-- The rows stand in ascending order, each ending before the next begins. -/
theorem opcodeTable_ascending :
    opcodeTable.Pairwise fun r q => r.pattern.toNat + r.wordCount ≤ q.pattern.toNat := by decide

theorem opcodeTable_disjoint : opcodeTable.Pairwise fun r q =>
    ∀ w : Word, ¬ (w &&& r.mask = r.pattern ∧ w &&& q.mask = q.pattern) := by
  refine opcodeTable_ascending.imp_of_mem fun {r q} hr hq hrq w => ?_
  rw [selects_iff_interval hr, selects_iff_interval hq]
  omega

/-- The intervals of the eight rows leave no gap below `0x3000` (R61). -/
theorem interval_mem_opcodeTable_iff (n : Nat) :
    (∃ r ∈ opcodeTable, r.pattern.toNat ≤ n ∧ n < r.pattern.toNat + r.wordCount) ↔ n < 0x3000 := by
  simp only [opcodeTable, rowOf, OpcodeRow.wordCount, List.exists_mem_cons_iff, List.not_mem_nil, false_and,
    exists_false, or_false, BitVec.toNat_ofNat]
  omega

theorem opcodeTable_covers (w : Word) :
    (∃ r ∈ opcodeTable, w &&& r.mask = r.pattern) ↔ w.toNat < 0x3000 := by
  rw [← interval_mem_opcodeTable_iff]
  exact exists_congr fun r => and_congr_right fun hr => selects_iff_interval hr w

/-! ## The row of a decoded command -/

theorem rowOf_mem_opcodeTable (i : Instr) : rowOf i ∈ opcodeTable := by
  cases i <;> simp [opcodeTable, rowOf]

theorem interval_rowOf_decodeEnc {w : Word} (h : opcField w = 2) :
    (rowOf (decodeEnc w)).pattern.toNat ≤ w.toNat ∧
      w.toNat < (rowOf (decodeEnc w)).pattern.toNat + (rowOf (decodeEnc w)).wordCount := by
  rw [opcField_eq_div] at h
  have halg := algField_eq_mod w
  obtain ⟨ha, hd⟩ | ⟨ha, hd⟩ | ⟨ha, hd⟩ | ⟨ha, hd⟩ | ⟨hlo, hhi, hd⟩ | ⟨hlo, hhi, hd⟩ := decodeEnc_cases w <;>
    rw [hd] <;> simp only [rowOf, OpcodeRow.wordCount, BitVec.toNat_ofNat] <;> omega

theorem selects_rowOf_of_decode {w : Word} {i : Instr} (h : decode w = .ok i) :
    w &&& (rowOf i).mask = (rowOf i).pattern := by
  rw [selects_iff_interval (rowOf_mem_opcodeTable i)]
  obtain ⟨ho, hd⟩ | ⟨ho, hd⟩ | ⟨ho, hd⟩ | ⟨-, hd⟩ := decode_cases w <;> rw [hd] at h <;> cases h
  · simp only [opcField_eq_div, rowOf, OpcodeRow.wordCount, BitVec.toNat_ofNat] at ho ⊢
    omega
  · simp only [opcField_eq_div, rowOf, OpcodeRow.wordCount, BitVec.toNat_ofNat] at ho ⊢
    omega
  · exact interval_rowOf_decodeEnc ho

/-! ## The canonical words -/

theorem toNat_encode_push (c : Symbol) : (encode (.push c)).toNat = 0x1000 + c.toNat := by
  have hc := c.isLt
  simp only [encode, BitVec.toNat_add, BitVec.toNat_setWidth, BitVec.toNat_ofNat]
  omega

theorem toNat_encode_encFletcher {w : Nat} (hw : w < 64) (p : PadPolicy) (o : TrailerOrder) :
    (encode (.encFletcher w p o)).toNat = 0x2100 + 4 * w + 2 * padBit p + ordBit o := by
  have hp : padBit p ≤ 1 := by cases p <;> decide
  have ho : ordBit o ≤ 1 := by cases o <;> decide
  exact Nat.mod_eq_of_lt (by omega)

theorem toNat_encode_encUnsup4 {a : Nat} (ha : a < 8) : (encode (.encUnsup4 a)).toNat = 0x2000 + 256 * a :=
  Nat.mod_eq_of_lt (by omega)

theorem toNat_encode_encUnsup8 {a : Nat} (ha : a < 16) : (encode (.encUnsup8 a)).toNat = 0x2000 + 256 * a :=
  Nat.mod_eq_of_lt (by omega)

/-- Settles O3: every row selects an interval of words, and the eight intervals follow one another without a gap. -/
theorem opcodeMapDisjointAndCovering : Obligations.OpcodeMapDisjointAndCovering :=
  ⟨rfl, opcodeTable_disjoint, opcodeTable_covers,
    fun _ i h => ⟨rowOf_mem_opcodeTable i, selects_rowOf_of_decode h⟩,
    rfl, toNat_encode_push, rfl, fun _ p o hw => toNat_encode_encFletcher hw p o, rfl, rfl,
    fun _ _ ha => toNat_encode_encUnsup4 ha, fun _ _ ha => toNat_encode_encUnsup8 ha⟩

end Sys2Proof

namespace Sys2Proof.Machine

/-! ## Issuing a word -/

theorem step_issue_of_decode {s : State} {w : Word} {rest : List HostAction} {i : Instr}
    (hs : s.stream = .issue w :: rest) (h : decode w = .ok i) : step s = exec i { s with stream := rest } :=
  (step_cons hs).trans (issueWord_ok _ h)

theorem step_issue_of_reserved {s : State} {w : Word} {rest : List HostAction}
    (hs : s.stream = .issue w :: rest) (h : 3 ≤ opcField w) : step s = .refused (.reservedOpcode (opcField w)) := by
  rw [step_cons hs]
  simp [perform, issueWord, decode_of_reserved h]

/-- The machine meets a word only through its decoder. -/
theorem step_issue_congr {w v : Word} (h : decode w = decode v) (s : State) (rest : List HostAction) :
    step { s with stream := .issue w :: rest } = step { s with stream := .issue v :: rest } := by
  rw [step_cons rfl, step_cons rfl]
  simp only [perform, issueWord, h]

/-- A decoded command is refused only as a PUSH into a full IBUF (R131, U2). -/
theorem refusal_of_exec {i : Instr} {s : State} {r : Refusal} (h : exec i s = .refused r) :
    r = .inputBufferFull := by
  cases he : engineOf i with
  | some engine =>
    rw [exec_eq_encodeWith he] at h
    cases h
  | none =>
    cases i with
    | clr => cases h
    | push c =>
      change execPush c s = .refused r at h
      obtain ⟨_, hp⟩ | ⟨_, hp⟩ := execPush_cases c s <;> rw [hp] at h <;> cases h
      rfl
    | _ => cases he

/-! ## The causes that an encode command can report -/

theorem engineOf_decodeEnc {w : Word} (h : algField w ≠ 1) :
    engineOf (decodeEnc w) = some encodeCrc32 ∨ engineOf (decodeEnc w) = some encodeHamming ∨
      engineOf (decodeEnc w) = some encodeUnsupported := by
  obtain ⟨-, hd⟩ | ⟨ha, -⟩ | ⟨-, hd⟩ | ⟨-, hd⟩ | ⟨-, -, hd⟩ | ⟨-, -, hd⟩ := decodeEnc_cases w
  · exact .inl (hd ▸ rfl)
  · exact absurd ha h
  · exact .inr (.inl (hd ▸ rfl))
  all_goals exact .inr (.inr (hd ▸ rfl))

/-- The block width of CRC-32 is wired to 8, so its engine always answers (R75). -/
theorem encodeCrc32_ne_error (bits : BitString) (e : EceError) : encodeCrc32 bits ≠ .error e := by
  rw [encodeCrc32, toBlocks_legal (by decide)]
  exact nofun

theorem eq_empty_of_encodeHamming_error {bits : BitString} {e : EceError} (h : encodeHamming bits = .error e) :
    e = errEmptyInput := by
  by_cases hb : bits = []
  · subst hb
    cases h
    rfl
  · rw [encodeHamming, hamming_nonempty hb] at h
    cases h

/-- BAD_WIDTH comes from the block width of ENC.FLETCHER alone (R60, R75). -/
theorem cause_ne_badWidth_of_engine {w : Word} {engine : BitString → Except EceError EncodeResult}
    (ha : algField w ≠ 1) (he : engineOf (decodeEnc w) = some engine) {bits : BitString} {e : EceError}
    (h : engine bits = .error e) : e.cause ≠ .badWidth := by
  obtain hc | hc | hc := engineOf_decodeEnc ha <;> cases he.symm.trans hc
  · exact absurd h (encodeCrc32_ne_error bits e)
  · rw [eq_empty_of_encodeHamming_error h]
    decide
  · cases h
    decide

theorem cause_ne_badWidth_of_inputBits {l : List Symbol} {e : EceError} (h : inputBits l = .error e) :
    e.cause ≠ .badWidth := by
  obtain ⟨_, hl⟩ | ⟨_, _, hl⟩ | ⟨_, _, hl⟩ := inputBits_cases l <;> rw [hl] at h <;> cases h <;> decide

theorem statusEcause_statusOfError (e : EceError) : statusEcause (statusOfError e) = errorCauseCode e.cause := by
  obtain ⟨kind, cause⟩ := e
  cases kind <;> cases cause <;> decide

theorem errorCauseCode_eq_three_iff (c : ErrorCause) : errorCauseCode c = 3 ↔ c = .badWidth := by
  cases c <;> decide

theorem statusEcause_encodeWith_ne_badWidth {engine : BitString → Except EceError EncodeResult}
    (h : ∀ bits e, engine bits = .error e → e.cause ≠ .badWidth) (s : State) :
    statusEcause (encodeWith engine s).status ≠ 3 := by
  obtain ⟨bits, r, _, _, hw⟩ | ⟨e, herr, hw⟩ := encodeWith_cases engine s <;> rw [hw]
  · rw [commitResult_status]
    decide
  · have hcause : e.cause ≠ .badWidth := by
      obtain hin | ⟨bits, _, heng⟩ := herr
      · exact cause_ne_badWidth_of_inputBits hin
      · exact h bits e heng
    rwa [errorEntry_status, statusEcause_statusOfError, Ne, errorCauseCode_eq_three_iff]

end Sys2Proof.Machine

namespace Sys2Proof

open Machine

/-- Settles O4: OPC is the word divided by `0x1000`, and a word with a smaller OPC decodes to a command. -/
theorem reservedWordsAreRefused : Obligations.ReservedWordsAreRefused := by
  intro s w rest hs
  have hopc : 0x3000 ≤ w.toNat ↔ 3 ≤ opcField w := by
    rw [opcField_eq_div]
    omega
  refine ⟨hopc, fun h => step_issue_of_reserved hs (hopc.mp h), fun h n hstep => ?notReserved⟩
  case notReserved =>
    obtain ⟨i, hi⟩ := exists_decode_of_opc_lt (w := w) (by omega)
    rw [step_issue_of_decode hs hi] at hstep
    cases refusal_of_exec hstep

/-! ## Ignored bits -/

/-- Words that agree on the significant bits of their command decode alike (R60). -/
theorem decode_congr {w v : Word}
    (h : (opcField w = 0 ∧ opcField v = 0) ∨
      (opcField w = 1 ∧ opcField v = 1 ∧ symField w = symField v) ∨
      (opcField w = 2 ∧ opcField v = 2 ∧ algField w = algField v ∧ algField w ≠ 1)) :
    decode w = decode v := by
  obtain ⟨hw, hv⟩ | ⟨hw, hv, hsym⟩ | ⟨hw, hv, halg, hne⟩ := h
  · rw [decode_of_opc_zero hw, decode_of_opc_zero hv]
  · rw [decode_of_opc_one hw, decode_of_opc_one hv, hsym]
  · rw [decode_of_opc_two hw, decode_of_opc_two hv, decodeEnc_congr halg hne]

/-- An ENC word built from ALG alone is 0 below ALG. -/
theorem ofNat_and_algMask {a : Nat} (ha : a < 16) :
    BitVec.ofNat 16 (0x2000 + 256 * a) &&& 0xFF00#16 = BitVec.ofNat 16 (0x2000 + 256 * a) := by
  interval_cases a <;> decide

/-- A canonical word has every ignored bit 0 (R60, R61). -/
theorem encode_and_significantMask {i : Instr} (h : i.wf = true) : encode i &&& significantMask i = encode i := by
  cases i with
  | clr => decide
  | push sym =>
    clear h
    revert sym
    decide
  | encFletcher width pad ord => exact BitVec.and_allOnes
  | encUnsup4 alg =>
    have ha : 4 ≤ alg ∧ alg < 8 := by simpa [Instr.wf] using h
    exact ofNat_and_algMask (by omega)
  | encUnsup8 alg =>
    have ha : 8 ≤ alg ∧ alg < 16 := by simpa [Instr.wf] using h
    exact ofNat_and_algMask ha.2
  | encCrc32 => decide
  | encHamming => decide
  | encUnsup3 => decide

/-- Settles O5: the decoder does not look at ignored bits, and the width check belongs to ENC.FLETCHER's engine. -/
theorem ignoredFieldsHaveNoEffect : Obligations.IgnoredFieldsHaveNoEffect := by
  refine ⟨fun w v h => ⟨decode_congr h, step_issue_congr (decode_congr h)⟩,
    fun i => encode_and_significantMask, fun w s t rest ho ha hs hstep => ?badWidth⟩
  case badWidth =>
    have hne : ∃ engine, engineOf (decodeEnc w) = some engine := by
      obtain h | h | h := engineOf_decodeEnc ha <;> exact ⟨_, h⟩
    obtain ⟨engine, he⟩ := hne
    rw [step_issue_of_decode hs (decode_of_opc_two ho), exec_eq_encodeWith he] at hstep
    cases hstep
    exact statusEcause_encodeWith_ne_badWidth (fun _ _ => cause_ne_badWidth_of_engine ha he) _

end Sys2Proof
end

section
/-! PROOFS. BitBlocker: padding, block values and the width check (40_bitblocker.md, R71 to R75). -/

namespace Sys2Proof.Machine

/-! ## The zero-pad policy -/

theorem padZero_eq (bits : BitString) {w : Nat} (hw : 0 < w) :
    padZero bits w = (bits ++ zeros ((w - bits.length % w) % w), (w - bits.length % w) % w) := by
  rw [← padZero_snd bits hw]
  rfl

theorem padZero_of_whole_blocks {bits : BitString} {w : Nat} (h : bits.length % w = 0) :
    padZero bits w = (bits, 0) := by
  simp [padZero, zeros, h]

/-- The pad count completes the last block: the length is rounded up to a multiple of `w` (R71). -/
theorem add_padCount_eq_ceil_mul (m : Nat) {w : Nat} (hw : 0 < w) :
    m + (w - m % w) % w = (m + w - 1) / w * w := by
  have hlt : m % w < w := Nat.mod_lt m hw
  have hdiv : m / w * w + m % w = m := Nat.div_add_mod' m w
  by_cases h : m % w = 0
  · have hceil : (m + w - 1) / w = m / w := by
      rw [Nat.div_eq_iff hw]
      omega
    rw [hceil, h, Nat.sub_zero, Nat.mod_self]
    omega
  · have hceil : (m + w - 1) / w = m / w + 1 := by
      rw [Nat.div_eq_iff hw, Nat.add_mul]
      omega
    rw [hceil, Nat.mod_eq_of_lt (by omega), Nat.add_mul]
    omega

/-! ## What the engines keep of `toBlocks` -/

/-- CRC-32's padded string and pad count are the zero-pad policy's over bytes (R91). -/
theorem padded_of_encodeCrc32 {bits : BitString} {r : EncodeResult} (h : encodeCrc32 bits = .ok r) :
    (r.padded, r.padCount) = padZero bits 8 := by
  rw [encodeCrc32, toBlocks_legal (by decide)] at h
  cases h
  rfl

/-- Fletcher's padded string and pad count are those of the policy that PAD selects (R105). -/
theorem padded_of_encodeFletcher {w : Nat} {pad : PadPolicy} {ord : TrailerOrder} {bits : BitString}
    {r : EncodeResult} (h : encodeFletcher w pad ord bits = .ok r) :
    (r.padded, r.padCount) = applyPolicy pad bits w := by
  rw [encodeFletcher, toBlocks_legal (padCount_of_encodeFletcher h).1] at h
  cases h
  rfl

/-! ## The value of a block -/

theorem blockValue_eq_sum (s : BitString) :
    blockValue s = ∑ j ∈ Finset.range s.length, (s.getD j false).toNat * 2 ^ (s.length - 1 - j) := by
  induction s using List.reverseRecOn with
  | nil => rfl
  | append_singleton s b ih =>
    have hshift : ∀ j ∈ Finset.range s.length,
        ((s ++ [b]).getD j false).toNat * 2 ^ (s.length - j) =
          2 * ((s.getD j false).toNat * 2 ^ (s.length - 1 - j)) := by
      intro j hj
      have hlt : j < s.length := Finset.mem_range.mp hj
      have hexp : s.length - j = s.length - 1 - j + 1 := by omega
      rw [List.getD_append _ _ _ _ hlt, hexp, pow_succ']
      ring
    rw [blockValue_snoc, ih, List.length_append, List.length_singleton, Finset.sum_range_succ, Nat.add_sub_cancel,
      Finset.sum_congr rfl hshift, ← Finset.mul_sum, Nat.sub_self, pow_zero, mul_one,
      List.getD_append_right _ _ _ _ le_rfl, Nat.sub_self, List.getD_cons_zero]

theorem blockValue_lt (s : BitString) : blockValue s < 2 ^ s.length := by
  induction s using List.reverseRecOn with
  | nil => decide
  | append_singleton s b ih =>
    have hb : b.toNat ≤ 1 := b.toNat_le
    rw [blockValue_snoc, List.length_append, List.length_singleton, pow_succ]
    omega

/-! ## The width check -/

theorem encodeCrc32_isOk (bits : BitString) : ∃ r, encodeCrc32 bits = .ok r := by
  cases h : encodeCrc32 bits with
  | error e => exact absurd h (encodeCrc32_ne_error bits e)
  | ok r => exact ⟨r, rfl⟩

theorem encodeFletcher_legal {w : Nat} (h : legalWidth w = true) (pad : PadPolicy) (ord : TrailerOrder)
    (bits : BitString) : ∃ r, encodeFletcher w pad ord bits = .ok r := by
  rw [encodeFletcher, toBlocks_legal h]
  exact ⟨_, rfl⟩

theorem encodeFletcher_illegal {w : Nat} (h : legalWidth w = false) (pad : PadPolicy) (ord : TrailerOrder)
    (bits : BitString) : encodeFletcher w pad ord bits = .error errBadWidth := by
  rw [encodeFletcher, toBlocks_illegal h]

theorem encodeWith_of_ok {engine : BitString → Except EceError EncodeResult} {s : State} {bits : BitString}
    {r : EncodeResult} (hin : inputBits s.mem.ibuf = .ok bits) (h : engine bits = .ok r) :
    encodeWith engine s = commitResult bits r s := by
  simp [encodeWith, hin, h]

theorem encodeWith_of_error {engine : BitString → Except EceError EncodeResult} {s : State} {bits : BitString}
    {e : EceError} (hin : inputBits s.mem.ibuf = .ok bits) (h : engine bits = .error e) :
    encodeWith engine s = errorEntry e s := by
  simp [encodeWith, hin, h]

end Sys2Proof.Machine

namespace Sys2Proof

open Machine

theorem not_widthAllowed_iff (w : Nat) : ¬ widthAllowed w ↔ legalWidth w = false := by
  rw [widthAllowed_iff, Bool.not_eq_true]

/-- On a valid input, STATUS of ENC.FLETCHER tells a legal width from an illegal one (R75, R134). -/
theorem status_encFletcher_eq_badWidth_iff {s : State} (h : validInput s) (w : Nat) (p : PadPolicy) (o : TrailerOrder) :
    (encodeWith (encodeFletcher w p o) s).status = 0x1B ↔ ¬ widthAllowed w := by
  have hin := inputBits_of_validInput h
  rw [not_widthAllowed_iff]
  cases hw : legalWidth w with
  | true =>
    obtain ⟨r, hr⟩ := encodeFletcher_legal hw p o (inputString s)
    rw [encodeWith_of_ok hin hr, commitResult_status]
    decide
  | false =>
    rw [encodeWith_of_error hin (encodeFletcher_illegal hw p o _), errorEntry_status]
    decide

/-- Settles O33: the closed form of the pad count makes the padded length the input's, rounded up to whole blocks. -/
theorem zeroPadPolicy : Obligations.ZeroPadPolicy := by
  intro bits w hw
  have hbound : (w - bits.length % w) % w ≤ w - 1 := Nat.le_sub_one_of_lt (Nat.mod_lt _ hw)
  refine ⟨(w - bits.length % w) % w, padZero_eq bits hw, rfl, hbound, ?length, padZero_of_whole_blocks,
    fun _ => padded_of_encodeCrc32, fun _ _ => padded_of_encodeFletcher⟩
  case length =>
    rw [List.length_append, zeros_length]
    exact add_padCount_eq_ceil_mul bits.length hw

/-- Settles O35, by induction on the string from its last bit, the order in which the block value takes bits in. -/
theorem blockValueIsMsbFirst : Obligations.BlockValueIsMsbFirst :=
  ⟨fun s => ⟨blockValue_eq_sum s, blockValue_lt s⟩, blockValue_nil⟩

/-- Settles O37: `toBlocks` decides by the width alone, and ENC.FLETCHER reports its error. -/
theorem widthCheckGuardsBlocks : Obligations.WidthCheckGuardsBlocks := by
  refine ⟨fun bits w p hw => ?illegal, fun bits w p hw => ?legal, encodeCrc32_isOk, fun s w p o hs => ?status⟩
  case illegal => exact toBlocks_illegal ((not_widthAllowed_iff w).mp hw) bits p
  case legal => exact ⟨_, toBlocks_legal ((widthAllowed_iff w).mp hw) bits p⟩
  case status =>
    rw [exec_eq_encodeWith rfl, ← status_encFletcher_eq_badWidth_iff hs w p o]
    simp

end Sys2Proof
end

section
/-! PROOFS. CRC32Engine: the reduction table (R85) and the accumulator (R87). -/

namespace Sys2Proof.Machine

/-! ## The reduction table -/

theorem getLsbD_zero_iff_and_one_eq_one (c : U32) : c.getLsbD 0 = true ↔ c &&& 1 = 1 := by
  have hmask : c &&& 1 = (BitVec.ofBool (c.getLsbD 0)).setWidth 32 := BitVec.and_one_eq_setWidth_ofBool_getLsbD
  rw [hmask]
  cases c.getLsbD 0 <;> decide

/-- The step of R85, testing bit 0 by a mask. -/
theorem crcShift_eq_ite (c : U32) :
    crcShift c = if c &&& 1 = 1 then (c >>> 1) ^^^ crcPoly else c >>> 1 := by
  simp only [crcShift, getLsbD_zero_iff_and_one_eq_one]

theorem crcShift8_eq_iterate (c : U32) : crcShift8 c = crcShift^[8] c := rfl

theorem crcTab_eq_iterate (n : BitVec 8) : crcTab n = crcShift^[8] (n.setWidth 32) :=
  crcShift8_eq_iterate _

/-! ## The accumulator -/

/-- The table index of R87: the low byte of the accumulator's XOR with the byte, as a number. -/
theorem crcIndex_eq_ofNat (acc : U32) (byte : Nat) :
    (acc ^^^ BitVec.ofNat 32 byte).setWidth 8 = BitVec.ofNat 8 ((acc.toNat ^^^ byte) &&& 0xFF) := by
  have hmask : (acc.toNat ^^^ byte) &&& 0xFF = (acc.toNat ^^^ byte) % 2 ^ 8 := Nat.and_two_pow_sub_one_eq_mod _ 8
  apply BitVec.eq_of_toNat_eq
  rw [BitVec.toNat_setWidth, BitVec.toNat_xor, BitVec.toNat_ofNat, BitVec.toNat_ofNat, hmask, Nat.mod_mod,
    Nat.xor_mod_two_pow, Nat.xor_mod_two_pow, Nat.mod_mod_of_dvd byte (by decide : 2 ^ 8 ∣ 2 ^ 32)]

theorem crcStep_eq (acc : U32) (byte : Nat) :
    crcStep acc byte = (acc >>> 8) ^^^ crcTab (BitVec.ofNat 8 ((acc.toNat ^^^ byte) &&& 0xFF)) := by
  rw [← crcIndex_eq_ofNat]
  rfl

/-- The bytes are processed in order: the final XOR undone gives the accumulator that the next byte meets (R87). -/
theorem crc32_snoc (bytes : List Nat) (byte : Nat) :
    crc32 (bytes ++ [byte]) = crcStep (crc32 bytes ^^^ crcFinalXor) byte ^^^ crcFinalXor := by
  simp [crc32]

end Sys2Proof.Machine

namespace Sys2Proof

open Machine

/-- Settles O41: one more byte is one more `crcStep`, between undoing and redoing the final XOR. -/
theorem crc32Accumulates : Obligations.Crc32Accumulates := by
  refine ⟨crc32_nil, ?snoc, by decide, by decide⟩
  rintro bytes b acc - rfl
  rw [crc32_snoc, crcStep_eq]
  rfl

/-- Settles O39: the step's bit test is the mask by 1, an entry is the eighth iterate, and the named values evaluate. -/
theorem crcTableEntries : Obligations.CrcTableEntries := by
  refine ⟨crcShift_eq_ite, crcTab_eq_iterate, by decide, by decide, by decide, by decide, ?trace⟩
  case trace => exact (Prod.forall (p := fun e => e ∈ _ → crcShift^[e.1] 1 = e.2)).mp (by decide)

end Sys2Proof
end

section
/-! PROOFS. FletcherEngine: modulus (R101), running sums (R102) and trailer (R104). -/

namespace Sys2Proof.Machine

/-! ## The modulus -/

theorem fletcherModulus_pos {w : Nat} (hw : w ≠ 0) : 0 < fletcherModulus w :=
  Nat.sub_pos_of_lt (Nat.one_lt_two_pow hw)

/-- The all-ones block value is the modulus itself, so it reduces to 0 (R101). -/
theorem allOnes_mod_fletcherModulus (w : Nat) : (2 ^ w - 1) % fletcherModulus w = 0 :=
  Nat.mod_self _

/-! ## The running sums -/

theorem fletcherStep_sum1 (M : Nat) (r : FletcherSums) (v : Nat) : (fletcherStep M r v).sum1 = (r.sum1 + v) % M := rfl

/-- SUM2 takes in the SUM1 of the same step (R102). -/
theorem fletcherStep_sum2 (M : Nat) (r : FletcherSums) (v : Nat) :
    (fletcherStep M r v).sum2 = (r.sum2 + (fletcherStep M r v).sum1) % M := rfl

theorem fletcherSums_snoc_sum1 (blocks : List Nat) (v w : Nat) :
    (fletcherSums (blocks ++ [v]) w).sum1 = ((fletcherSums blocks w).sum1 + v) % fletcherModulus w := by
  rw [fletcherSums_snoc, fletcherStep_sum1]

theorem fletcherSums_snoc_sum2 (blocks : List Nat) (v w : Nat) :
    (fletcherSums (blocks ++ [v]) w).sum2 =
      ((fletcherSums blocks w).sum2 + (fletcherSums (blocks ++ [v]) w).sum1) % fletcherModulus w := by
  rw [fletcherSums_snoc, fletcherStep_sum2]

/-- Every block leaves both sums reduced, and so does the seed (R102). -/
theorem fletcherSums_lt_modulus (blocks : List Nat) {w : Nat} (hw : w ≠ 0) :
    (fletcherSums blocks w).sum1 < fletcherModulus w ∧ (fletcherSums blocks w).sum2 < fletcherModulus w := by
  have hM := fletcherModulus_pos hw
  cases blocks using List.reverseRecOn with
  | nil => exact ⟨hM, hM⟩
  | append_singleton blocks v =>
    rw [fletcherSums_snoc_sum2, fletcherSums_snoc_sum1]
    exact ⟨Nat.mod_lt _ hM, Nat.mod_lt _ hM⟩

/-! ## The rendering of a reduced sum -/

/-- A rendering of `w` ones shows every bit of the value below `w`. -/
theorem testBit_of_render_eq_allOnes {w v i : Nat} (h : render w v = List.replicate w true) (hi : i < w) :
    v.testBit i = true := by
  have hmem : v.testBit (w - 1 - (w - 1 - i)) ∈ render w v :=
    List.mem_map_of_mem (List.mem_range.mpr (by omega))
  rw [h, Nat.sub_sub_self (Nat.le_sub_one_of_lt hi)] at hmem
  exact List.eq_of_mem_replicate hmem

/-- Only a value that is not reduced renders as all ones (R102). -/
theorem render_ne_allOnes {w v : Nat} (hv : v < fletcherModulus w) : render w v ≠ List.replicate w true := by
  intro h
  have hmod : v % 2 ^ w = 2 ^ w - 1 := by
    apply Nat.eq_of_testBit_eq
    intro i
    rw [Nat.testBit_mod_two_pow, Nat.testBit_two_pow_sub_one]
    by_cases hi : i < w
    · simp [hi, testBit_of_render_eq_allOnes h hi]
    · simp [hi]
  have hle : 2 ^ w - 1 ≤ v := hmod ▸ Nat.mod_le v (2 ^ w)
  exact absurd hv (Nat.not_lt.mpr hle)

/-! ## The trailer -/

theorem fletcherTrailer_s1s2 (blocks : List Nat) (w : Nat) :
    fletcherTrailer blocks w .s1s2 = render w (fletcherSums blocks w).sum1 ++ render w (fletcherSums blocks w).sum2 := rfl

theorem fletcherTrailer_s2s1 (blocks : List Nat) (w : Nat) :
    fletcherTrailer blocks w .s2s1 = render w (fletcherSums blocks w).sum2 ++ render w (fletcherSums blocks w).sum1 := rfl

@[simp] theorem fletcherTrailer_length (blocks : List Nat) (w : Nat) (o : TrailerOrder) :
    (fletcherTrailer blocks w o).length = 2 * w := by
  cases o with
  | s1s2 => rw [fletcherTrailer_s1s2, List.length_append, render_length, render_length, two_mul]
  | s2s1 => rw [fletcherTrailer_s2s1, List.length_append, render_length, render_length, two_mul]

end Sys2Proof.Machine

namespace Sys2Proof

open Machine

theorem widthAllowed_ne_zero {w : Nat} (h : widthAllowed w) : w ≠ 0 := by
  rintro rfl
  simp [widthAllowed] at h

/-- Settles O44: the two updates are one `fletcherStep`, and a reduced sum is too small to render as all ones. -/
theorem fletcherRunningSums : Obligations.FletcherRunningSums := by
  rintro w M hw rfl
  refine ⟨fletcherSums_nil w,
    fun blocks v => ⟨fletcherSums_snoc_sum1 blocks v w, fletcherSums_snoc_sum2 blocks v w⟩, fun blocks => ?bounds⟩
  case bounds =>
    obtain ⟨h1, h2⟩ := fletcherSums_lt_modulus blocks (widthAllowed_ne_zero hw)
    exact ⟨Nat.le_sub_one_of_lt h1, Nat.le_sub_one_of_lt h2, render_ne_allOnes h1, render_ne_allOnes h2⟩

/-- Settles O45: the four moduli evaluate, and the all-ones value reduces to 0 at every width. -/
theorem fletcherModulusTable : Obligations.FletcherModulusTable :=
  ⟨by decide, by decide, by decide, by decide, fun w => ⟨rfl, allOnes_mod_fletcherModulus w⟩⟩

/-- Settles O48: ORD chooses which rendered sum comes first; each has `w` bits. -/
theorem fletcherTrailerOrder : Obligations.FletcherTrailerOrder := fun blocks w =>
  ⟨fletcherTrailer_s1s2 blocks w, fletcherTrailer_s2s1 blocks w, fletcherTrailer_length blocks w⟩

end Sys2Proof
end

section
/-! PROOFS. HammingEngine: parity-bit count (R115), parity positions (R116), placement (R117) and errors (R120). -/

namespace Sys2Proof.Machine

/-! ## The parity-bit count -/

/-- The search answers the first number from `r` on that satisfies the inequality, once its bound on the tries reaches a
number that does (R115). -/
theorem hammingRFrom_isFirst {fuel m r : Nat} (h : m + (r + fuel) + 1 ≤ 2 ^ (r + fuel)) :
    m + hammingRFrom fuel m r + 1 ≤ 2 ^ hammingRFrom fuel m r ∧
      ∀ q, r ≤ q → q < hammingRFrom fuel m r → ¬ m + q + 1 ≤ 2 ^ q := by
  induction fuel generalizing r with
  | zero => exact ⟨h, fun q hlo hhi => absurd hhi (Nat.not_lt.mpr hlo)⟩
  | succ fuel ih =>
    rw [hammingRFrom]
    split
    case isTrue hfound => exact ⟨hfound, fun q hlo hhi => absurd hhi (Nat.not_lt.mpr hlo)⟩
    case isFalse hmiss =>
      have hnext : r + (fuel + 1) = r + 1 + fuel := by omega
      obtain ⟨hfits, hfirst⟩ := ih (hnext ▸ h)
      refine ⟨hfits, fun q hlo hhi => ?_⟩
      obtain rfl | hlt := Nat.eq_or_lt_of_le hlo
      · exact hmiss
      · exact hfirst q hlt hhi

/-- The bound `r = m + 1` of the search satisfies the inequality. -/
theorem hammingR_isFirst (m : Nat) :
    m + hammingR m + 1 ≤ 2 ^ hammingR m ∧ ∀ q, q < hammingR m → ¬ m + q + 1 ≤ 2 ^ q := by
  have hm : m < 2 ^ m := Nat.lt_two_pow_self
  have hbound : m + (0 + (m + 1)) + 1 ≤ 2 ^ (0 + (m + 1)) := by
    rw [Nat.zero_add, Nat.pow_succ]
    omega
  obtain ⟨hfits, hfirst⟩ := hammingRFrom_isFirst hbound
  exact ⟨hfits, fun q => hfirst q (Nat.zero_le q)⟩

theorem hammingR_fits (m : Nat) : m + hammingR m + 1 ≤ 2 ^ hammingR m := (hammingR_isFirst m).1

theorem not_fits_of_lt_hammingR {m q : Nat} (h : q < hammingR m) : ¬ m + q + 1 ≤ 2 ^ q := (hammingR_isFirst m).2 q h

/-- Neither 0 nor 1 parity bit covers a data bit (R115). -/
theorem two_le_of_fits {m r : Nat} (hm : 1 ≤ m) (h : m + r + 1 ≤ 2 ^ r) : 2 ≤ r := by
  match r with
  | 0 => omega
  | 1 => omega
  | r + 2 => omega

/-! ## The parity positions -/

theorem isPow2_iff {pos : Nat} (h : 1 ≤ pos) : isPow2 pos = true ↔ ∃ k, pos = 2 ^ k := by
  rw [isPow2, beq_iff_eq, Nat.and_sub_one_eq_zero_iff_isPowerOfTwo (by omega)]
  rfl

/-- Minimality of r puts `2 ^ (r - 1)` within the codeword, the inequality leaves `2 ^ r` outside (R116). -/
theorem two_pow_le_add_hammingR_iff (m k : Nat) : 2 ^ k ≤ m + hammingR m ↔ k < hammingR m := by
  constructor
  · intro h
    have hfits := hammingR_fits m
    exact (Nat.pow_lt_pow_iff_right Nat.one_lt_two).mp (by omega : 2 ^ k < 2 ^ hammingR m)
  · intro h
    have hmiss := not_fits_of_lt_hammingR h
    omega

/-- The parity positions of a codeword are `2 ^ 0 .. 2 ^ (r - 1)` (R116): two ascending lists with the same members. -/
theorem parityPositions_eq (m : Nat) :
    (positions (m + hammingR m)).filter isPow2 = (List.range (hammingR m)).map (2 ^ ·) := by
  have hpos : ((positions (m + hammingR m)).filter isPow2).SortedLT :=
    ((List.sortedLT_range' 1 _ Nat.one_ne_zero).pairwise.filter _).sortedLT
  have hpow : ((List.range (hammingR m)).map (2 ^ ·)).SortedLT :=
    (List.pairwise_lt_range.map _ fun _ _ h => Nat.pow_lt_pow_right Nat.one_lt_two h).sortedLT
  refine hpos.eq_of_mem_iff hpow fun pos => ?_
  rw [List.mem_filter, mem_positions, List.mem_map]
  constructor
  · rintro ⟨⟨hlo, hhi⟩, hp⟩
    obtain ⟨k, rfl⟩ := (isPow2_iff hlo).mp hp
    exact ⟨k, List.mem_range.mpr ((two_pow_le_add_hammingR_iff m k).mp hhi), rfl⟩
  · rintro ⟨k, hk, rfl⟩
    have hlo : 1 ≤ 2 ^ k := Nat.one_le_two_pow
    exact ⟨⟨hlo, (two_pow_le_add_hammingR_iff m k).mpr (List.mem_range.mp hk)⟩, (isPow2_iff hlo).mpr ⟨k, rfl⟩⟩

/-- What the r parity positions leave of the `m + r` positions is one for each data bit (R116). -/
theorem dataPositions_length (m : Nat) :
    ((positions (m + hammingR m)).filter (fun pos => !isPow2 pos)).length = m := by
  have hsplit := List.length_eq_length_filter_add (l := positions (m + hammingR m)) isPow2
  rw [parityPositions_eq, List.length_map, List.length_range, positions_length] at hsplit
  omega

/-! ## Placement -/

/-- A string is what its positions hold, in ascending order (R37). -/
theorem map_hcwBit_positions (c : BitString) : (positions c.length).map (hcwBit c) = c := by
  apply List.ext_getElem
  · simp
  · intro i _ hi
    simp [positions, hcwBit, hi]

theorem zip_positions_eq_map (c : BitString) :
    (positions c.length).zip c = (positions c.length).map fun pos => (pos, hcwBit c pos) := by
  rw [List.map_prod_left_eq_zip, map_hcwBit_positions]

theorem placeFrom_cons_of_isPow2 {pos : Nat} (hp : isPow2 pos = true) (rest : List Nat) (d : BitString) :
    placeFrom (pos :: rest) d = false :: placeFrom rest d := by
  simp [placeFrom, hp]

theorem placeFrom_cons_of_not_isPow2 {pos : Nat} (hp : isPow2 pos = false) (rest : List Nat) (d : BitString) :
    placeFrom (pos :: rest) d = d.headD false :: placeFrom rest d.tail := by
  simp [placeFrom, hp]

/-- The data positions take the data bits in order, if there is one for each (R117). -/
theorem placeFrom_dataBits {poss : List Nat} {d : BitString}
    (h : (poss.filter (fun pos => !isPow2 pos)).length = d.length) :
    ((poss.zip (placeFrom poss d)).filter (fun e => !isPow2 e.1)).map Prod.snd = d := by
  induction poss generalizing d with
  | nil => exact (List.eq_nil_of_length_eq_zero h.symm).symm
  | cons pos rest ih =>
    cases hp : isPow2 pos with
    | true => simpa [placeFrom_cons_of_isPow2, hp] using ih (by simpa [hp] using h)
    | false =>
      cases d with
      | nil => simp [hp] at h
      | cons b d => simpa [placeFrom_cons_of_not_isPow2, hp] using ih (by simpa [hp] using h)

/-- A parity position is left 0 (R117). -/
theorem placeFrom_parityBit {poss : List Nat} {d : BitString} {e : Nat × Bool} (he : e ∈ poss.zip (placeFrom poss d))
    (hp : isPow2 e.1 = true) : e.2 = false := by
  induction poss generalizing d with
  | nil => cases he
  | cons pos rest ih =>
    cases hq : isPow2 pos with
    | true =>
      rw [placeFrom_cons_of_isPow2 hq, List.zip_cons_cons, List.mem_cons] at he
      obtain rfl | he := he
      · rfl
      · exact ih he
    | false =>
      rw [placeFrom_cons_of_not_isPow2 hq, List.zip_cons_cons, List.mem_cons] at he
      obtain rfl | he := he
      · exact absurd hp (Bool.eq_false_iff.mp hq)
      · exact ih he

@[simp] theorem place_length (d : BitString) (n : Nat) : (place d n).length = n := by
  simp [place]

theorem zip_place_eq_map (d : BitString) (n : Nat) :
    (positions n).zip (place d n) = (positions n).map fun pos => (pos, hcwBit (place d n) pos) := by
  simpa using zip_positions_eq_map (place d n)

theorem place_dataBits (d : BitString) :
    ((positions (d.length + hammingR d.length)).filter (fun pos => !isPow2 pos)).map
      (hcwBit (place d (d.length + hammingR d.length))) = d := by
  have hdata := placeFrom_dataBits (dataPositions_length d.length)
  rwa [← place, zip_place_eq_map, List.filter_map, List.map_map] at hdata

theorem place_parityBit {d : BitString} {n pos : Nat} (hlo : 1 ≤ pos) (hhi : pos ≤ n) (hp : isPow2 pos = true) :
    hcwBit (place d n) pos = false := by
  have hmem : (pos, hcwBit (place d n) pos) ∈ (positions n).zip (place d n) := by
    rw [zip_place_eq_map]
    exact List.mem_map_of_mem (mem_positions.mpr ⟨hlo, hhi⟩)
  exact placeFrom_parityBit hmem hp

/-! ## Errors -/

theorem hamming_nil : hamming [] = .error errEmptyInput := rfl

theorem hamming_eq_error_iff (d : BitString) : hamming d = .error errEmptyInput ↔ d = [] := by
  constructor
  · intro h
    by_contra hd
    rw [hamming_nonempty hd] at h
    cases h
  · rintro rfl
    exact hamming_nil

theorem encodeHamming_nonempty {d : BitString} (h : d ≠ []) : encodeHamming d = .ok ⟨d, [], hammingCodeword d, 0⟩ := by
  rw [encodeHamming, hamming_nonempty h]

/-- Step 1 of ENC reports the empty input whatever the engine is (R120, R132). -/
theorem encodeWith_of_ibuf_nil (engine : BitString → Except EceError EncodeResult) {s : State}
    (h : s.mem.ibuf = []) : encodeWith engine s = errorEntry errEmptyInput s := by
  simp [encodeWith, h, inputBits_nil]

end Sys2Proof.Machine

namespace Sys2Proof

open Machine

theorem inputString_ne_nil {s : State} (h : validInput s) : inputString s ≠ [] := by
  simpa [inputString] using h.1

/-- Settles O50: the search is exact because `m + 1` parity bits always suffice. -/
theorem hammingParityCountIsMinimal : Obligations.HammingParityCountIsMinimal := by
  rintro m r rfl
  have hfits := hammingR_fits m
  exact ⟨hfits, by omega, fun q => not_fits_of_lt_hammingR, fun hm => two_le_of_fits hm hfits⟩

/-- Settles O52: the data positions are as many as the data bits, so the interleaver spends each bit once. -/
theorem hammingPlacementKeepsDataOrder : Obligations.HammingPlacementKeepsDataOrder := by
  rintro d n - rfl
  exact ⟨place_length d _, place_dataBits d, fun pos => place_parityBit⟩

/-- Settles O56: the engine tests for the empty string alone, which step 1 of every ENC has tested before. -/
theorem hammingFailsOnlyOnEmptyInput : Obligations.HammingFailsOnlyOnEmptyInput := by
  refine ⟨hamming_eq_error_iff, fun d hd => ⟨_, hamming_nonempty hd⟩, fun s hs => ⟨_, rfl, ?valid⟩,
    fun i s hi hs => ?empty⟩
  case valid =>
    rw [encodeWith_of_ok (inputBits_of_validInput hs) (encodeHamming_nonempty (inputString_ne_nil hs)),
      commitResult_status, statusResult_eq]
  case empty =>
    obtain ⟨engine, he⟩ := Option.isSome_iff_exists.mp hi
    exact ⟨_, exec_eq_encodeWith he s, by
      rw [encodeWith_of_ibuf_nil engine hs, errorEntry_status, statusOfError_empty]⟩

end Sys2Proof
end

section
/-! PROOFS. The commands as a whole: CLR and PUSH (R130, R131), and what every ENC leaves (R132 to R139). -/

namespace Sys2Proof.Machine

/-! ## States with the same visible part -/

/-- The visible state, the parameters and the host's side are all there is (R10, R22). -/
theorem State.eq_of_visible {s t : State} (hv : s.visible = t.visible) (hc : s.config = t.config)
    (hs : s.stream = t.stream) (hr : s.replies = t.replies) : s = t := by
  cases s
  cases t
  cases hv
  cases hc
  cases hs
  cases hr
  rfl

/-! ## CLR and PUSH -/

theorem exec_clr_of_visible_reset {s : State} (h : s.visible = State.reset.visible) : exec .clr s = .next s := by
  have hclear : clearAll s = s :=
    State.eq_of_visible ((clearAll_visible s).trans h.symm) (clearAll_config s) (clearAll_stream s) (clearAll_replies s)
  rw [exec_clr, hclear]

/-- No command but CLR removes a symbol from IBUF (R130). -/
theorem ibuf_prefix_of_exec {i : Instr} {s t : State} (hi : i ≠ .clr) (h : exec i s = .next t) :
    s.mem.ibuf <+: t.mem.ibuf := by
  obtain ⟨rfl, _⟩ | ⟨c, _, rfl⟩ | ⟨engine, _, rfl⟩ := exec_cases h
  · exact absurd rfl hi
  · rw [appendSymbol_ibuf]
    exact List.prefix_append _ _
  · rw [encodeWith_ibuf]

theorem exec_push_of_room {s : State} (c : Symbol) (h : hasRoom s = true) :
    exec (.push c) s = .next (appendSymbol c s) := by
  obtain ⟨_, hp⟩ | ⟨hfull, _⟩ := execPush_cases c s
  · exact hp
  · rw [h] at hfull
    cases hfull

theorem exec_push_of_full {s : State} (c : Symbol) (h : hasRoom s = false) :
    exec (.push c) s = .refused .inputBufferFull := by
  obtain ⟨hroom, _⟩ | ⟨_, hp⟩ := execPush_cases c s
  · rw [h] at hroom
    cases hroom
  · exact hp

theorem hasRoom_eq_false {s : State} {n : Nat} (hc : s.config.cap = some n) (h : n ≤ s.mem.ibuf.length) :
    hasRoom s = false := by
  rw [← Bool.not_eq_true, hasRoom_iff]
  exact fun hroom => absurd (hroom n hc) (Nat.not_lt.mpr h)

/-! ## What an ENC depends on -/

theorem encodeWith_of_inputError {engine : BitString → Except EceError EncodeResult} {s : State} {e : EceError}
    (h : inputBits s.mem.ibuf = .error e) : encodeWith engine s = errorEntry e s := by
  simp [encodeWith, h]

theorem errorEntry_visible_congr (e : EceError) {s s' : State} (h : s'.mem.ibuf = s.mem.ibuf) :
    (errorEntry e s').visible = (errorEntry e s).visible := by
  simp [State.visible, errorEntry, h]

theorem commitResult_visible_congr (bits : BitString) (r : EncodeResult) {s s' : State}
    (h : s'.mem.ibuf = s.mem.ibuf) : (commitResult bits r s').visible = (commitResult bits r s).visible := by
  simp [State.visible, commitResult, h]

/-- An ENC reads IBUF alone and overwrites the rest of the visible state (R132, R137). -/
theorem encodeWith_visible_congr (engine : BitString → Except EceError EncodeResult) {s s' : State}
    (h : s'.mem.ibuf = s.mem.ibuf) : (encodeWith engine s').visible = (encodeWith engine s).visible := by
  cases hin : inputBits s.mem.ibuf with
  | error e =>
    rw [encodeWith_of_inputError hin, encodeWith_of_inputError (h ▸ hin), errorEntry_visible_congr e h]
  | ok bits =>
    cases hr : engine bits with
    | error e => rw [encodeWith_of_error hin hr, encodeWith_of_error (h ▸ hin) hr, errorEntry_visible_congr e h]
    | ok r => rw [encodeWith_of_ok hin hr, encodeWith_of_ok (h ▸ hin) hr, commitResult_visible_congr bits r h]

theorem encodeWith_idem (engine : BitString → Except EceError EncodeResult) (s : State) :
    encodeWith engine (encodeWith engine s) = encodeWith engine s :=
  State.eq_of_visible (encodeWith_visible_congr engine (encodeWith_ibuf engine s)) (encodeWith_config engine _)
    (encodeWith_stream engine _) (encodeWith_replies engine _)

/-! ## The engines' answers in terms of the padded string -/

theorem encodeCrc32_of_padZero {bits padded : BitString} {k : Nat} (h : padZero bits 8 = (padded, k)) :
    encodeCrc32 bits = .ok ⟨padded, render 32 (crc32 (blocksOf padded 8)).toNat,
      padded ++ render 32 (crc32 (blocksOf padded 8)).toNat, k⟩ := by
  have hp : applyPolicy .zp bits 8 = (padded, k) := h
  rw [encodeCrc32, toBlocks_legal (by decide), hp]

theorem encodeFletcher_of_applyPolicy {w : Nat} (hw : legalWidth w = true) {p : PadPolicy} {bits padded : BitString}
    {k : Nat} (h : applyPolicy p bits w = (padded, k)) (o : TrailerOrder) :
    encodeFletcher w p o bits = .ok ⟨padded, fletcherTrailer (blocksOf padded w) w o,
      padded ++ fletcherTrailer (blocksOf padded w) w o, k⟩ := by
  rw [encodeFletcher, toBlocks_legal hw, h]

/-! ## The Fletcher trailer of no blocks -/

theorem render_zero (w : Nat) : render w 0 = zeros w := by
  simp [render, zeros]

theorem blocksOf_nil (w : Nat) : blocksOf [] w = [] := by
  simp [blocksOf]

/-- No block leaves both sums at their seed 0, in either order (R102, R106). -/
theorem fletcherTrailer_nil (w : Nat) (o : TrailerOrder) : fletcherTrailer [] w o = zeros (2 * w) := by
  have hzeros : render w 0 ++ render w 0 = zeros (2 * w) := by
    rw [render_zero, zeros, ← List.replicate_add, ← two_mul]
    rfl
  cases o with
  | s1s2 => exact hzeros
  | s2s1 => exact hzeros

/-! ## The Hamming codeword's length -/

theorem hammingCodeword_length (d : BitString) : (hammingCodeword d).length = d.length + hammingR d.length := by
  rw [hammingCodeword, parity_length, place_length]

end Sys2Proof.Machine

namespace Sys2Proof

open Machine

@[simp] theorem inputString_length (s : State) : (inputString s).length = s.mem.ibuf.length := by
  simp [inputString]

theorem one_le_length_of_validInput {s : State} (h : validInput s) : 1 ≤ s.mem.ibuf.length :=
  List.length_pos_iff.mpr h.1

/-! ## Commit and error entry in the statements' terms -/

theorem errorEntry_eq_afterError (e : EceError) (s : State) : errorEntry e s = afterError s (statusOfError e) := rfl

theorem commitResult_eq_afterResult (r : EncodeResult) (s : State) :
    commitResult (inputString s) r s = afterResult s r.padded r.trailer r.codeword r.padCount := by
  rw [commitResult, statusResult_eq]
  rfl

/-! ## Every encode command, in each of its four outcomes (R132, R157) -/

section
variable {i : Instr} {engine : BitString → Except EceError EncodeResult} {s : State}

theorem exec_enc_of_ibuf_nil (he : engineOf i = some engine) (h : s.mem.ibuf = []) :
    exec i s = .next (afterError s 0x0B) := by
  rw [exec_eq_encodeWith he, encodeWith_of_ibuf_nil engine h, errorEntry_eq_afterError, statusOfError_empty]

theorem exec_enc_of_nonbinary (he : engineOf i = some engine) (hne : s.mem.ibuf ≠ []) (h : ¬ validInput s) :
    exec i s = .next (afterError s 0x13) := by
  have hbad : ∃ c ∈ s.mem.ibuf, ¬ (c = 0x30 ∨ c = 0x31) := by
    by_contra hall
    exact h ⟨hne, by simpa only [not_exists, not_and, not_not] using hall⟩
  rw [exec_eq_encodeWith he, encodeWith_of_inputError (inputBits_nonbinary hbad), errorEntry_eq_afterError,
    statusOfError_nonbinary]

theorem exec_enc_of_engineError (he : engineOf i = some engine) (hs : validInput s) {e : EceError}
    (h : engine (inputString s) = .error e) : exec i s = .next (afterError s (statusOfError e)) := by
  rw [exec_eq_encodeWith he, encodeWith_of_error (inputBits_of_validInput hs) h, errorEntry_eq_afterError]

theorem exec_enc_of_engineResult (he : engineOf i = some engine) (hs : validInput s) {r : EncodeResult}
    (h : engine (inputString s) = .ok r) :
    exec i s = .next (afterResult s r.padded r.trailer r.codeword r.padCount) := by
  rw [exec_eq_encodeWith he, encodeWith_of_ok (inputBits_of_validInput hs) h, commitResult_eq_afterResult]

end

/-! ## The unknown algorithms -/

theorem engineOf_of_isUnsup {i : Instr} (h : isUnsup i = true) : engineOf i = some encodeUnsupported := by
  cases i with
  | encUnsup3 => rfl
  | encUnsup4 _ => rfl
  | encUnsup8 _ => rfl
  | _ => cases h

theorem isUnsup_decodeEnc {w : Word} (h : 3 ≤ algField w) : isUnsup (decodeEnc w) = true := by
  obtain ⟨ha, _⟩ | ⟨ha, _⟩ | ⟨ha, _⟩ | ⟨_, hd⟩ | ⟨_, _, hd⟩ | ⟨_, _, hd⟩ := decodeEnc_cases w
  · omega
  · omega
  · omega
  all_goals exact hd ▸ rfl

theorem exists_decode_isUnsup {w : Word} (hlo : 0x2300 ≤ w.toNat) (hhi : w.toNat ≤ 0x2FFF) :
    ∃ i, decode w = .ok i ∧ isUnsup i = true := by
  have hopc : opcField w = 2 := by
    rw [opcField_eq_div]
    omega
  have halg : 3 ≤ algField w := by
    rw [algField_eq_mod]
    omega
  exact ⟨decodeEnc w, decode_of_opc_two hopc, isUnsup_decodeEnc halg⟩

/-! ## The commands' own results -/

/-- Settles O15: CLR is `clearAll`, and every other command keeps IBUF or appends to it. -/
theorem clrClearsEverything : Obligations.ClrClearsEverything := by
  refine ⟨fun s => ?effect, fun w => decode_of_opc_zero, rfl, fun s => exec_clr_of_visible_reset, fun s t h => ?reset,
    fun i s t => ibuf_prefix_of_exec⟩
  case effect =>
    rw [exec_clr, clearAll, statusIdle_eq]
    rfl
  case reset =>
    cases h
    exact clearAll_visible s

/-- Settles O16: PUSH turns on `hasRoom` alone, never on the symbol. -/
theorem pushAppendsOneSymbol : Obligations.PushAppendsOneSymbol :=
  ⟨fun s c h => exec_push_of_room c ((hasRoom_iff s).mpr h),
    fun _ c _ hc h => exec_push_of_full c (hasRoom_eq_false hc h),
    fun _ => decode_of_opc_one, toNat_encode_push⟩

/-- Settles O23: an ENC leaves IBUF, and what it writes is read off IBUF by its engine. -/
theorem encIsDeterministic : Obligations.EncIsDeterministic := by
  intro i s hi
  obtain ⟨engine, he⟩ := Option.isSome_iff_exists.mp hi
  refine ⟨encodeWith engine s, exec_eq_encodeWith he s, ?again, fun s' t' hin h => ?sameInput⟩
  case again => rw [exec_eq_encodeWith he, encodeWith_idem]
  case sameInput =>
    rw [exec_eq_encodeWith he] at h
    cases h
    exact encodeWith_visible_congr engine hin

/-- Settles O27: the engine's padded string is the zero-pad policy's over bytes, and each error entry is step 1's. -/
theorem encCrc32Result : Obligations.EncCrc32Result := by
  refine fun s => ⟨?valid, exec_enc_of_ibuf_nil rfl, exec_enc_of_nonbinary rfl⟩
  case valid =>
    rintro hs k padded trailer rfl rfl rfl
    have hresult := encodeCrc32_of_padZero (padZero_eq (inputString s) (w := 8) (by decide))
    refine ⟨exec_enc_of_engineResult rfl hs hresult, render_length 32 _, ?_⟩
    rw [List.length_append, List.length_append, render_length, zeros_length, inputString_length,
      add_padCount_eq_ceil_mul _ (by decide)]
    rfl

/-- Settles O28: one run of the engine for both policies; under the drop policy a short input leaves no block at all. -/
theorem encFletcherResult : Obligations.EncFletcherResult := by
  refine fun s w p o => ⟨?legal, exec_enc_of_ibuf_nil rfl, exec_enc_of_nonbinary rfl, fun hs hw => ?illegal⟩
  case illegal =>
    exact exec_enc_of_engineError rfl hs (encodeFletcher_illegal ((not_widthAllowed_iff w).mp hw) p o _)
  case legal =>
    rintro hs hw m k padded trailer rfl hk hpadded rfl
    have hpos : 0 < w := Nat.pos_of_ne_zero (widthAllowed_ne_zero hw)
    have hpolicy : applyPolicy p (inputString s) w = (padded, k) := by
      cases p with
      | zp => rw [hpadded, hk, applyPolicy, padZero_eq _ hpos, inputString_length]
      | drop => rw [hpadded, hk, applyPolicy, dropPartial, inputString_length]
    have hresult := encodeFletcher_of_applyPolicy ((widthAllowed_iff w).mp hw) hpolicy o
    refine ⟨exec_enc_of_engineResult rfl hs hresult, fletcherTrailer_length _ w o, ?length, ?short⟩
    case length =>
      rw [List.length_append, fletcherTrailer_length]
      cases p with
      | zp =>
        rw [hpadded, hk, List.length_append, zeros_length, inputString_length, add_padCount_eq_ceil_mul _ hpos]
      | drop =>
        rw [hpadded, List.length_take, inputString_length, Nat.min_eq_left (Nat.div_mul_le_self _ _)]
    case short =>
      rintro rfl hm
      have hnil : padded = [] := by
        rw [hpadded, Nat.div_eq_of_lt hm, Nat.zero_mul, List.take_zero]
      rw [hnil, blocksOf_nil, fletcherTrailer_nil]
      exact ⟨rfl, rfl⟩

/-- Settles O29: at least two parity bits make the codeword longer than PADDED ++ TRAILER. -/
theorem encHammingResult : Obligations.EncHammingResult := by
  refine fun s => ⟨fun hs => ?valid, exec_enc_of_ibuf_nil rfl, exec_enc_of_nonbinary rfl⟩
  case valid =>
    have hlen : (hammingCodeword (inputString s)).length = s.mem.ibuf.length + hammingR s.mem.ibuf.length := by
      rw [hammingCodeword_length, inputString_length]
    have hr : 2 ≤ hammingR s.mem.ibuf.length := two_le_of_fits (one_le_length_of_validInput hs) (hammingR_fits _)
    refine ⟨exec_enc_of_engineResult rfl hs (encodeHamming_nonempty (inputString_ne_nil hs)), hlen, fun h => ?_⟩
    rw [h, List.append_nil, inputString_length] at hlen
    omega

/-- Settles O30: the three rows share the engine that always fails, after step 1; the words are ALG = 3 .. 15. -/
theorem encUnsupRaises : Obligations.EncUnsupRaises := by
  refine ⟨fun i s hi => ?raises, fun w => exists_decode_isUnsup⟩
  case raises =>
    have he := engineOf_of_isUnsup hi
    exact ⟨fun hs => statusOfError_unknown ▸ exec_enc_of_engineError he hs rfl, exec_enc_of_ibuf_nil he,
      exec_enc_of_nonbinary he⟩

/-- Settles O31: the lengths in the three commands' results; Hamming's is the least because `hammingR` is. -/
theorem codewordLengths : Obligations.CodewordLengths := by
  rintro s hs m rfl
  refine ⟨?crc32, fun w o hw => ⟨?zeroPad, ?drop⟩, ?hamming⟩
  case crc32 =>
    obtain ⟨hexec, _, hlen⟩ := (encCrc32Result s).1 hs _ _ _ rfl rfl rfl
    exact ⟨_, hexec, hlen⟩
  case zeroPad =>
    obtain ⟨hexec, _, hlen, _⟩ := (encFletcherResult s w .zp o).1 hs hw _ _ _ _ rfl rfl rfl rfl
    exact ⟨_, hexec, hlen⟩
  case drop =>
    obtain ⟨hexec, _, hlen, _⟩ := (encFletcherResult s w .drop o).1 hs hw _ _ _ _ rfl rfl rfl rfl
    exact ⟨_, hexec, hlen⟩
  case hamming =>
    obtain ⟨hexec, hlen, _⟩ := (encHammingResult s).1 hs
    refine ⟨_, _, hexec, hlen, hammingR_fits _, fun q hq => ?_⟩
    exact Nat.add_le_add_left (Nat.le_of_not_lt fun hlt => not_fits_of_lt_hammingR hlt hq) _

end Sys2Proof
end

section
/-! PROOFS. Errors: which one an ENC reports (R157), its entry (R158), and what STATUS depends on (R155, R160). -/

namespace Sys2Proof.Machine

/-! ## The fields of STATUS -/

theorem statusDone_statusOfError (e : EceError) : statusDone (statusOfError e) = true := by
  obtain ⟨kind, cause⟩ := e
  cases kind <;> cases cause <;> decide

theorem statusErr_statusOfError (e : EceError) : statusErr (statusOfError e) = errorKindCode e.kind := by
  obtain ⟨kind, cause⟩ := e
  cases kind <;> cases cause <;> decide

/-! ## STATUS and the commands -/

/-- With no action of the host waiting, ECE waits (R180). -/
theorem step_nil {s : State} (h : s.stream = []) : step s = .next s := by
  rw [step, stepHost, takeAction_nil h]

/-- An ENC ends with DONE = 1, whether with a result or with an error (R132 step 3, R158). -/
theorem statusDone_encodeWith (engine : BitString → Except EceError EncodeResult) (s : State) :
    statusDone (encodeWith engine s).status = true := by
  obtain ⟨bits, r, _, _, hw⟩ | ⟨e, _, hw⟩ := encodeWith_cases engine s <;> rw [hw]
  · rw [commitResult_status]
    decide
  · exact statusDone_statusOfError e

/-- The STATUS that an ENC finds is overwritten and never read (R160). -/
theorem encodeWith_setStatus (engine : BitString → Except EceError EncodeResult) (s : State) (v : BitVec 8) :
    encodeWith engine { s with status := v } = encodeWith engine s :=
  State.eq_of_visible (encodeWith_visible_congr engine rfl) (by simp) (by simp) (by simp)

/-- PUSH neither reads nor writes STATUS (R131, R160). -/
theorem exec_push_setStatus {c : Symbol} {s t : State} (h : exec (.push c) s = .next t) (v : BitVec 8) :
    exec (.push c) { s with status := v } = .next { t with status := v } := by
  cases hroom : hasRoom s with
  | true =>
    rw [eq_appendSymbol_of_exec_push h]
    exact exec_push_of_room (s := { s with status := v }) c hroom
  | false =>
    rw [exec_push_of_full c hroom] at h
    cases h

end Sys2Proof.Machine

namespace Sys2Proof

open Machine

/-- A command that is no ENC keeps STATUS, or it is CLR (R155). -/
theorem status_of_exec_of_not_isEnc {i : Instr} {s t : State} (hi : isEnc i = false) (h : exec i s = .next t) :
    t.status = s.status ∨ (i = .clr ∧ t.status = 0x00) := by
  obtain ⟨rfl, rfl⟩ | ⟨c, rfl, rfl⟩ | ⟨engine, he, rfl⟩ := exec_cases h
  · exact .inr ⟨rfl, statusIdle_eq⟩
  · exact .inl (appendSymbol_status c s)
  · simp [isEnc, he] at hi

/-- Everything a step can do to STATUS (R155, R160): only an ENC gives it a new value, and CLR and reset zero it. -/
theorem status_of_step {s t : State} (h : step s = .next t) :
    t.status = s.status ∨
    (∃ i, issues s i ∧ isEnc i = true) ∨
    ((issues s .clr ∨ ∃ rest, s.stream = .reset :: rest) ∧ t.status = 0x00) := by
  cases hs : s.stream with
  | nil =>
    rw [step_nil hs] at h
    cases h
    exact .inl rfl
  | cons a rest =>
    rw [step_cons hs] at h
    obtain ⟨w, i, rfl, hd, hexec⟩ | ⟨r, rfl, _⟩ | ⟨rfl, rfl⟩ := perform_cases h
    · have hissues : issues s i := (issues_iff hs i).mpr hd
      cases hi : isEnc i with
      | true => exact .inr (.inl ⟨i, hissues, hi⟩)
      | false =>
        obtain hkeep | ⟨rfl, hzero⟩ := status_of_exec_of_not_isEnc hi hexec
        · exact .inl hkeep
        · exact .inr (.inr ⟨.inl hissues, hzero⟩)
    · exact .inl (reply_status r _)
    · exact .inr (.inr ⟨.inr ⟨rest, rfl⟩, assertReset_status _⟩)

/-! ## The one error that is reported -/

/-- Everything an engine can answer to the non-empty string that step 2 hands it (R132, R157 priorities 3 and 4). -/
theorem engine_cases {i : Instr} {engine : BitString → Except EceError EncodeResult} {bits : BitString}
    (he : engineOf i = some engine) (hb : bits ≠ []) :
    (isUnsup i = true ∧ engine bits = .error errUnknownAlgorithm) ∨
    ((∃ w p o, i = .encFletcher w p o ∧ ¬ widthAllowed w) ∧ engine bits = .error errBadWidth) ∨
    (isUnsup i = false ∧ (∀ w p o, i = .encFletcher w p o → widthAllowed w) ∧ ∃ r, engine bits = .ok r) := by
  cases i with
  | clr => cases he
  | push _ => cases he
  | encCrc32 =>
    cases he
    exact .inr (.inr ⟨rfl, nofun, encodeCrc32_isOk bits⟩)
  | encFletcher w p o =>
    cases he
    by_cases hw : widthAllowed w
    · refine .inr (.inr ⟨rfl, ?_, encodeFletcher_legal ((widthAllowed_iff w).mp hw) p o bits⟩)
      rintro _ _ _ ⟨⟩
      exact hw
    · exact .inr (.inl ⟨⟨w, p, o, rfl, hw⟩, encodeFletcher_illegal ((not_widthAllowed_iff w).mp hw) p o bits⟩)
  | encHamming =>
    cases he
    exact .inr (.inr ⟨rfl, nofun, _, encodeHamming_nonempty hb⟩)
  | _ =>
    cases he
    exact .inl ⟨rfl, rfl⟩

section
variable {i : Instr} {s : State} (e : Option (ErrorKind × ErrorCause))

theorem reports_iff_of_ibuf_nil (h : s.mem.ibuf = []) :
    reports i s e ↔ e = some (.invalidInput, .emptyInput) := by
  simp [reports, validInput, h]

theorem reports_iff_of_nonbinary (hne : s.mem.ibuf ≠ []) (h : ¬ validInput s) :
    reports i s e ↔ e = some (.invalidInput, .nonbinarySymbol) := by
  simp [reports, hne, h]

theorem reports_iff_of_isUnsup (hs : validInput s) (hu : isUnsup i = true) :
    reports i s e ↔ e = some (.unsupportedScheme, .unknownAlgorithm) := by
  have hwidth : ¬ ∃ w p o, i = .encFletcher w p o ∧ ¬ widthAllowed w := by
    rintro ⟨w, p, o, rfl, _⟩
    cases hu
  simp only [reports, hs, hs.1, hu, hwidth]
  simp

theorem reports_iff_of_badWidth (hs : validInput s) (hw : ∃ w p o, i = .encFletcher w p o ∧ ¬ widthAllowed w) :
    reports i s e ↔ e = some (.invalidInput, .badWidth) := by
  obtain ⟨w, p, o, rfl, hbad⟩ := hw
  simp [reports, hs, hs.1, isUnsup, hbad]

theorem reports_iff_of_noError (hs : validInput s) (hu : isUnsup i = false)
    (hw : ∀ w p o, i = .encFletcher w p o → widthAllowed w) : reports i s e ↔ e = none := by
  have hwidth : ¬ ∃ w p o, i = .encFletcher w p o ∧ ¬ widthAllowed w := by
    rintro ⟨w, p, o, hi, hbad⟩
    exact hbad (hw w p o hi)
  simp only [reports, hs, hs.1, hu, hwidth]
  simpa using fun _ => hw

end

/-- An ENC has exactly one outcome: it completes with the STATUS of what it reports, by error entry if that is an error
(R132, R157, R158). -/
theorem exec_enc_outcome {i : Instr} (hi : isEnc i = true) (s : State) :
    ∃ e t, (∀ e', reports i s e' ↔ e' = e) ∧ exec i s = .next t ∧ t.status = statusAfter e ∧
      (e ≠ none → t = afterError s (statusAfter e)) := by
  obtain ⟨engine, he⟩ := Option.isSome_iff_exists.mp hi
  by_cases hnil : s.mem.ibuf = []
  · exact ⟨_, _, fun e => reports_iff_of_ibuf_nil e hnil, exec_enc_of_ibuf_nil he hnil, rfl, fun _ => rfl⟩
  by_cases hs : validInput s
  case neg =>
    exact ⟨_, _, fun e => reports_iff_of_nonbinary e hnil hs, exec_enc_of_nonbinary he hnil hs, rfl, fun _ => rfl⟩
  obtain ⟨hu, hr⟩ | ⟨hw, hr⟩ | ⟨hu, hw, r, hr⟩ := engine_cases he (inputString_ne_nil hs)
  · refine ⟨_, _, fun e => reports_iff_of_isUnsup e hs hu, exec_enc_of_engineError he hs hr, ?_⟩
    exact ⟨statusOfError_unknown, fun _ => congrArg (afterError s) statusOfError_unknown⟩
  · refine ⟨_, _, fun e => reports_iff_of_badWidth e hs hw, exec_enc_of_engineError he hs hr, ?_⟩
    exact ⟨statusOfError_badWidth, fun _ => congrArg (afterError s) statusOfError_badWidth⟩
  · exact ⟨none, _, fun e => reports_iff_of_noError e hs hu hw, exec_enc_of_engineResult he hs hr, rfl,
      fun h => absurd rfl h⟩

/-- Only the four pairs of R156 are reported, and the table's STATUS values are made of their codes (R14). -/
theorem statusAfter_of_reports {i : Instr} {s : State} {kind : ErrorKind} {cause : ErrorCause}
    (h : reports i s (some (kind, cause))) : statusAfter (some (kind, cause)) = statusOfError ⟨kind, cause⟩ := by
  obtain ⟨_, he⟩ | ⟨_, _, he⟩ | ⟨_, _, he⟩ | ⟨_, _, he⟩ | ⟨_, _, _, he⟩ := h <;> cases he
  · exact statusOfError_empty.symm
  · exact statusOfError_nonbinary.symm
  · exact statusOfError_unknown.symm
  · exact statusOfError_badWidth.symm

/-! ## The statements -/

/-- Settles O19: the conditions of the five outcomes exclude each other, and one of them holds. -/
theorem encReportsTheFirstError : Obligations.EncReportsTheFirstError := by
  intro i s hi
  obtain ⟨e, t, hreports, hexec, hstatus, _⟩ := exec_enc_outcome hi s
  exact ⟨e, (hreports e).mpr rfl, fun e' => (hreports e').mp, t, hexec, hstatus⟩

/-- Settles O20: the reported error is the one outcome of the ENC, which enters it, and STATUS is made of its codes. -/
theorem errorEntryEmptiesTheRecord : Obligations.ErrorEntryEmptiesTheRecord := by
  intro i s kind cause hi h
  obtain ⟨e, t, hreports, hexec, _, hentry⟩ := exec_enc_outcome hi s
  obtain rfl := (hreports _).mp h
  refine ⟨hentry (Option.some_ne_none _) ▸ hexec, ?_⟩
  rw [statusAfter_of_reports h]
  exact ⟨statusDone_statusOfError _, statusErr_statusOfError _, statusEcause_statusOfError _⟩

/-- Settles O21: a step that is no ENC keeps STATUS or zeroes it, and an ENC reads IBUF alone. -/
theorem errorsComeOnlyFromEnc : Obligations.ErrorsComeOnlyFromEnc := by
  refine ⟨fun s t h hne herr => ?step, fun i s t hi h => ?noEnc, fun i s s' t t' hi hin h h' => ?enc⟩
  case step =>
    obtain hkeep | henc | ⟨_, hzero⟩ := status_of_step h
    · exact absurd hkeep hne
    · exact henc
    · rw [hzero] at herr
      exact absurd (by decide) herr
  case noEnc => exact (status_of_exec_of_not_isEnc hi h).imp_right And.right
  case enc =>
    obtain ⟨engine, he⟩ := Option.isSome_iff_exists.mp hi
    rw [exec_eq_encodeWith he] at h h'
    cases h
    cases h'
    exact congrArg Visible.status (encodeWith_visible_congr engine hin)

/-- Settles O22: what a step can do to STATUS, and no command's meaning reads it. -/
theorem errorStateLastsAndBlocksNothing : Obligations.ErrorStateLastsAndBlocksNothing := by
  refine ⟨fun s t h hclr henc hreset => ?lasts, fun i s hi => ?enc,
    fun s => ⟨clearAll s, exec_clr s, statusIdle_eq, fun _ => rfl⟩, fun c s t v h => exec_push_setStatus h v⟩
  case lasts =>
    obtain hkeep | ⟨i, hissues, hi⟩ | ⟨hissues | ⟨rest, hs⟩, _⟩ := status_of_step h
    · exact hkeep
    · exact absurd hissues (henc i hi)
    · exact absurd hissues hclr
    · exact absurd hs (hreset rest)
  case enc =>
    obtain ⟨engine, he⟩ := Option.isSome_iff_exists.mp hi
    refine ⟨encodeWith engine s, exec_eq_encodeWith he s, statusDone_encodeWith engine s, fun v => ?_⟩
    rw [exec_eq_encodeWith he, encodeWith_setStatus]

end Sys2Proof
end

section
/-! PROOFS. The round trip of the encoding: decode after encode, and encode after decode (R50 to R61). -/

namespace Sys2Proof

/-! ## The remaining fields as arithmetic on the word -/

theorem widthField_eq_mod (w : Word) : widthField w = w.toNat / 4 % 64 := by
  rw [widthField, BitVec.extractLsb'_toNat, Nat.shiftRight_eq_div_pow]

/-- PAD is bit 1 of the word (R58). -/
theorem padBit_padField (w : Word) : padBit (padField w) = w.toNat / 2 % 2 := by
  have hbit : w.getLsbD 1 = decide (w.toNat / 2 % 2 = 1) := by
    rw [BitVec.getLsbD, Nat.testBit_eq_decide_div_mod_eq, pow_one]
  rw [padField, hbit]
  obtain h | h := Nat.mod_two_eq_zero_or_one (w.toNat / 2) <;> simp [h, padBit]

/-- ORD is bit 0 of the word (R58). -/
theorem ordBit_ordField (w : Word) : ordBit (ordField w) = w.toNat % 2 := by
  have hbit : w.getLsbD 0 = decide (w.toNat % 2 = 1) := by
    rw [BitVec.getLsbD, Nat.testBit_zero]
  rw [ordField, hbit]
  obtain h | h := Nat.mod_two_eq_zero_or_one w.toNat <;> simp [h, ordBit]

theorem padBit_le_one (p : PadPolicy) : padBit p ≤ 1 := by
  cases p <;> decide

theorem ordBit_le_one (o : TrailerOrder) : ordBit o ≤ 1 := by
  cases o <;> decide

theorem padBit_injective : Function.Injective padBit := by
  intro p q h
  cases p <;> cases q <;> simp_all [padBit]

theorem ordBit_injective : Function.Injective ordBit := by
  intro o q h
  cases o <;> cases q <;> simp_all [ordBit]

/-! ## Decoding a canonical word -/

/-- A word of the PUSH row decodes to the symbol it carries (R56). -/
theorem decode_of_toNat_push {w : Word} {c : Symbol} (h : w.toNat = 0x1000 + c.toNat) : decode w = .ok (.push c) := by
  have hc := c.isLt
  have hopc : opcField w = 1 := by
    rw [opcField_eq_div]
    omega
  have hsym : symField w = c := by
    apply BitVec.eq_of_toNat_eq
    rw [symField, BitVec.extractLsb'_toNat, Nat.shiftRight_zero]
    omega
  rw [decode_of_opc_one hopc, hsym]

/-- A word of the ENC.FLETCHER row decodes to the operands it carries (R57, R58). -/
theorem decode_of_toNat_encFletcher {w : Word} {width : Nat} {p : PadPolicy} {o : TrailerOrder} (hw : width < 64)
    (h : w.toNat = 0x2100 + 4 * width + 2 * padBit p + ordBit o) : decode w = .ok (.encFletcher width p o) := by
  have hp := padBit_le_one p
  have ho := ordBit_le_one o
  have hopc : opcField w = 2 := by
    rw [opcField_eq_div]
    omega
  have halg : algField w = 1 := by
    rw [algField_eq_mod]
    omega
  have hwidth : widthField w = width := by
    rw [widthField_eq_mod]
    omega
  have hpad : padField w = p := padBit_injective (by rw [padBit_padField]; omega)
  have hord : ordField w = o := ordBit_injective (by rw [ordBit_ordField]; omega)
  rw [decode_of_opc_two hopc]
  simp [decodeEnc, halg, hwidth, hpad, hord]

/-- A word of an unknown algorithm decodes by its ALG code (R55, R136). -/
theorem decode_of_toNat_unsup {w : Word} {alg : Nat} (hlo : 4 ≤ alg) (hhi : alg < 16)
    (h : w.toNat = 0x2000 + 256 * alg) :
    decode w = .ok (if alg < 8 then .encUnsup4 alg else .encUnsup8 alg) := by
  have hopc : opcField w = 2 := by
    rw [opcField_eq_div]
    omega
  have halg : algField w = alg := by
    rw [algField_eq_mod]
    omega
  have hne : alg ≠ 0 ∧ alg ≠ 1 ∧ alg ≠ 2 ∧ alg ≠ 3 := by omega
  rw [decode_of_opc_two hopc]
  simp [decodeEnc, halg, hne]

/-- Settles O1: each constructor's word is known as a number, and the decoder's fields are digits of that number. -/
theorem decodeEncodeRoundTrip : Obligations.DecodeEncodeRoundTrip := by
  intro i hi
  cases i with
  | clr => rfl
  | push c => exact decode_of_toNat_push (toNat_encode_push c)
  | encCrc32 => rfl
  | encFletcher width p o =>
    have hw : width < 64 := by simpa [Instr.wf] using hi
    exact decode_of_toNat_encFletcher hw (toNat_encode_encFletcher hw p o)
  | encHamming => rfl
  | encUnsup3 => rfl
  | encUnsup4 alg =>
    have ha : 4 ≤ alg ∧ alg < 8 := by simpa [Instr.wf] using hi
    rw [decode_of_toNat_unsup ha.1 (by omega) (toNat_encode_encUnsup4 ha.2), if_pos ha.2]
  | encUnsup8 alg =>
    have ha : 8 ≤ alg ∧ alg < 16 := by simpa [Instr.wf] using hi
    rw [decode_of_toNat_unsup (by omega) ha.2 (toNat_encode_encUnsup8 ha.2), if_neg (by omega)]

/-! ## The canonical word of a decoded command -/

/-- The decoder yields only operands that their fields can carry (R55, R57; log 11). -/
theorem wf_of_decode {w : Word} {i : Instr} (h : decode w = .ok i) : i.wf = true := by
  obtain ⟨-, hd⟩ | ⟨-, hd⟩ | ⟨-, hd⟩ | ⟨-, hd⟩ := decode_cases w <;> rw [hd] at h <;> cases h
  · rfl
  · rfl
  · have hw : widthField w < 64 := BitVec.isLt _
    obtain ⟨-, hd⟩ | ⟨-, hd⟩ | ⟨-, hd⟩ | ⟨-, hd⟩ | ⟨hlo, hhi, hd⟩ | ⟨hlo, hhi, hd⟩ := decodeEnc_cases w <;> rw [hd]
    · rfl
    · simpa [Instr.wf] using hw
    · rfl
    · rfl
    · simp [Instr.wf, hlo, hhi]
    · simp [Instr.wf, hlo, hhi]

theorem pushPattern_and_symbol (c : Symbol) : 0x1000#16 &&& c.setWidth 16 = 0 := by
  revert c
  decide

/-- OPC and SYM are the significant bits of a PUSH word (R60). -/
theorem encode_push_symField {w : Word} (h : opcField w = 1) :
    encode (.push (symField w)) = w &&& significantMask (.push (symField w)) := by
  have hopc : w &&& 0xF000#16 = 0x1000#16 := selects_rowOf_of_decode (decode_of_opc_one h)
  have hsym : w &&& 0x00FF#16 = (symField w).setWidth 16 := by
    apply BitVec.eq_of_toNat_eq
    have hlt := (symField w).isLt
    have hmask : w.toNat &&& 0xFF = w.toNat % 2 ^ 8 := Nat.and_two_pow_sub_one_eq_mod _ 8
    rw [BitVec.toNat_and, BitVec.toNat_setWidth, Nat.mod_eq_of_lt (by omega), symField, BitVec.extractLsb'_toNat,
      Nat.shiftRight_zero]
    exact hmask
  have hdisjoint := pushPattern_and_symbol (symField w)
  have hsplit : significantMask (.push (symField w)) = 0xF000#16 ||| 0x00FF#16 := rfl
  rw [encode, BitVec.add_eq_or_of_and_eq_zero _ _ hdisjoint, hsplit, BitVec.and_or_distrib_left, hopc, hsym]

/-- The mask of an ENC without operands keeps OPC and ALG (R60). -/
theorem and_algMask_eq {w : Word} (h : opcField w = 2) :
    w &&& 0xFF00#16 = BitVec.ofNat 16 (0x2000 + 256 * algField w) := by
  rw [opcField_eq_div] at h
  apply BitVec.eq_of_toNat_eq
  rw [show (0xFF00#16 : Word) = BitVec.allOnes 16 <<< 8 by decide, toNat_and_leadingOnes, BitVec.toNat_ofNat,
    algField_eq_mod]
  omega

/-- ENC.FLETCHER has no ignored bit, so its canonical word is the word itself (R60). -/
theorem encode_encFletcher_fields {w : Word} (h : opcField w = 2) (ha : algField w = 1) :
    encode (.encFletcher (widthField w) (padField w) (ordField w)) = w := by
  have hw : widthField w < 64 := BitVec.isLt _
  rw [opcField_eq_div] at h
  rw [algField_eq_mod] at ha
  apply BitVec.eq_of_toNat_eq
  rw [toNat_encode_encFletcher hw, widthField_eq_mod, padBit_padField, ordBit_ordField]
  omega

theorem encode_decodeEnc {w : Word} (h : opcField w = 2) :
    encode (decodeEnc w) = w &&& significantMask (decodeEnc w) := by
  have hmask := and_algMask_eq h
  obtain ⟨ha, hd⟩ | ⟨ha, hd⟩ | ⟨ha, hd⟩ | ⟨ha, hd⟩ | ⟨-, -, hd⟩ | ⟨-, -, hd⟩ := decodeEnc_cases w <;> rw [hd]
  · rw [ha] at hmask
    exact hmask.symm
  · exact (encode_encFletcher_fields h ha).trans BitVec.and_allOnes.symm
  · rw [ha] at hmask
    exact hmask.symm
  · rw [ha] at hmask
    exact hmask.symm
  · exact hmask.symm
  · exact hmask.symm

/-- Settles O2: the mask cuts a word into OPC, ALG and SYM, which are the digits of the canonical word. -/
theorem encodeKeepsSignificantBits : Obligations.EncodeKeepsSignificantBits := by
  intro w i h
  refine ⟨wf_of_decode h, ?_⟩
  obtain ⟨ho, hd⟩ | ⟨ho, hd⟩ | ⟨ho, hd⟩ | ⟨-, hd⟩ := decode_cases w <;> rw [hd] at h <;> cases h
  · exact (selects_rowOf_of_decode (decode_of_opc_zero ho)).symm
  · exact encode_push_symField ho
  · exact encode_decodeEnc ho

/-- Settles O6: the ten words evaluate. -/
theorem decoderReadsWrittenOutWords : Obligations.DecoderReadsWrittenOutWords := by
  refine ⟨?_, ?_, ?_, ?_, ?_, ?_, ?_, ?_, ?_, ?_⟩ <;> decide

end Sys2Proof
end

section
/-! PROOFS. A step of the host's stream (R41, R170, R191): what it runs, what it answers and what it leaves unchanged. -/

namespace Sys2Proof

open Machine

/-! ## Everything a step can do -/

/-- A step that goes on waits, runs the issued command, answers a read, or resets (R170, R180, R191). -/
theorem step_cases {s t : State} (h : step s = .next t) :
    (s.stream = [] ∧ t = s) ∨
    (∃ i, issues s i ∧ i.wf = true ∧ exec i { s with stream := s.stream.tail } = .next t) ∨
    (∃ r, t = reply r { s with stream := s.stream.tail } ∧
      ((∃ n rest, s.stream = .regRead n :: rest) ∨ ∃ b i rest, s.stream = .bufRead b i :: rest)) ∨
    (∃ rest, s.stream = .reset :: rest ∧ t = assertReset { s with stream := s.stream.tail }) := by
  cases hs : s.stream with
  | nil =>
    rw [step_nil hs] at h
    exact .inl ⟨rfl, (Host.Outcome.next.inj h).symm⟩
  | cons a rest =>
    rw [step_cons hs] at h
    obtain ⟨w, i, rfl, hd, hexec⟩ | ⟨r, rfl, ⟨n, rfl⟩ | ⟨b, i, rfl⟩⟩ | ⟨rfl, rfl⟩ := perform_cases h
    · exact .inr (.inl ⟨i, (issues_iff hs i).mpr hd, wf_of_decode hd, hexec⟩)
    · exact .inr (.inr (.inl ⟨r, rfl, .inl ⟨n, rest, rfl⟩⟩))
    · exact .inr (.inr (.inl ⟨r, rfl, .inr ⟨b, i, rest, rfl⟩⟩))
    · exact .inr (.inr (.inr ⟨rest, rfl, rfl⟩))

/-- A command leaves the parameters and the host's side (R10, R22). -/
theorem exec_frame {i : Instr} {s t : State} (h : exec i s = .next t) :
    t.config = s.config ∧ t.stream = s.stream ∧ t.replies = s.replies := by
  obtain ⟨_, rfl⟩ | ⟨c, _, rfl⟩ | ⟨engine, _, rfl⟩ := exec_cases h <;> simp

/-- Settles O13: waiting and reading are the two other things a step can do, and neither writes the block. -/
theorem onlyCommandsAndResetChangeTheBlock : Obligations.OnlyCommandsAndResetChangeTheBlock := by
  intro s t h hne
  obtain ⟨_, rfl⟩ | ⟨i, hi, _, _⟩ | ⟨r, rfl, _⟩ | ⟨rest, hs, _⟩ := step_cases h
  · exact absurd rfl hne
  · exact .inl ⟨i, hi⟩
  · exact absurd rfl hne
  · exact .inr ⟨rest, hs⟩

/-- Settles O14: the action is taken before it is performed, and only a read writes to the host's side after that. -/
theorem actionsAreTakenInIssueOrder : Obligations.ActionsAreTakenInIssueOrder := by
  refine ⟨fun s => step_nil, fun s t h => ?_⟩
  obtain ⟨hs, rfl⟩ | ⟨i, _, _, hexec⟩ | ⟨r, rfl, hread⟩ | ⟨rest, _, rfl⟩ := step_cases h
  · exact ⟨by rw [hs]; rfl, rfl, .inl rfl⟩
  · obtain ⟨hc, hs, hr⟩ := exec_frame hexec
    exact ⟨hs, hc, .inl hr⟩
  · exact ⟨rfl, rfl, .inr ⟨rfl, ⟨r, rfl⟩, hread⟩⟩
  · exact ⟨rfl, rfl, .inl rfl⟩

/-! ## The issued command -/

theorem decode_of_decodeTableWord {w : Nat} {i : Instr} (h : decodeTableWord 16 w = some i) :
    decode (BitVec.ofNat 16 (w % 2 ^ 16)) = .ok i := by
  rw [decodeTableWord, if_pos le_rfl] at h
  split at h
  case h_1 hd => rw [hd, Option.some.inj h]
  case h_2 => cases h

/-- Settles O7: `withFetchWord` puts the word where the step takes its action from. -/
theorem stepRunsTheIssuedCommand : Obligations.StepRunsTheIssuedCommand :=
  ⟨fun _ _ _ _ hs hd => step_issue_of_decode hs hd,
    fun s w _ h => step_issue_of_decode (s := s.withFetchWord 16 w) rfl (decode_of_decodeTableWord h)⟩

/-! ## The reads -/

theorem step_regRead_of_ok {s : State} {n v : Nat} {rest : List HostAction} (hs : s.stream = .regRead n :: rest)
    (h : regRead s n = .ok v) : step s = .next (reply (.reg n v) { s with stream := rest }) := by
  have hread : regRead { s with stream := rest } n = .ok v := h
  rw [step_cons hs, perform, performRegRead, hread]

theorem step_bufRead_of_ok {s : State} {b i : Nat} {c : Symbol} {rest : List HostAction}
    (hs : s.stream = .bufRead b i :: rest) (h : bufRead s.mem b i = .ok c) :
    step s = .next (reply (.symbol b i c) { s with stream := rest }) := by
  rw [step_cons hs, perform, performBufRead, h]

/-- Settles O10: a read is answered from the state in which its action is taken, which holds the same block. -/
theorem readsAnswerTheHost : Obligations.ReadsAnswerTheHost :=
  ⟨fun _ _ _ _ hs h => step_regRead_of_ok hs h, fun _ _ _ _ _ hs h => step_bufRead_of_ok hs h⟩

/-- Register 0 is write-only and the numbers end at 7 (R12, U4). -/
theorem regRead_undefined {n : Nat} (h : n = 0 ∨ 7 < n) (s : State) : regRead s n = .error (.regReadUndefined n) := by
  obtain rfl | h := h
  · rfl
  · obtain ⟨k, rfl⟩ := Nat.exists_eq_add_of_le' h
    rfl

theorem step_regRead_undefined {s : State} {n : Nat} {rest : List HostAction} (hs : s.stream = .regRead n :: rest)
    (h : n = 0 ∨ 7 < n) : step s = .refused (.regReadUndefined n) := by
  rw [step_cons hs, perform, performRegRead, regRead_undefined h]

theorem visible_of_step_regRead {s t : State} {n : Nat} {rest : List HostAction}
    (hs : s.stream = .regRead n :: rest) (h : step s = .next t) : t.visible = s.visible := by
  rw [step_cons hs] at h
  obtain ⟨w, j, ha, _⟩ | ⟨r, rfl, _⟩ | ⟨ha, _⟩ := perform_cases h
  · cases ha
  · rfl
  · cases ha

/-- Settles O8: the seven readable registers, one by one, and the refusal of every other number. -/
theorem registerReadsReturnTheRegisters : Obligations.RegisterReadsReturnTheRegisters := by
  refine ⟨fun s n v h => ?values, fun n hlo hhi => ?reset, fun s n rest hs => ⟨step_regRead_undefined hs, fun t =>
    visible_of_step_regRead hs⟩⟩
  case values =>
    simp only [List.mem_cons, List.not_mem_nil, or_false, Prod.mk.injEq] at h
    obtain ⟨rfl, rfl⟩ | ⟨rfl, rfl⟩ | ⟨rfl, rfl⟩ | ⟨rfl, rfl⟩ | ⟨rfl, rfl⟩ | ⟨rfl, rfl⟩ | ⟨rfl, rfl⟩ := h <;> rfl
  case reset => interval_cases n <;> rfl

/-! ## What a PUSH leaves (R131) -/

/-- A read answers the element, and refuses by naming itself if there is none (R33). -/
theorem bufRead_eq_elim (m : Memory) (b i : Nat) :
    bufRead m b i = ((bufferSymbols m b).bind (·[i]?)).elim (.error (.bufReadUndefined b i)) .ok := by
  cases hb : bufferSymbols m b with
  | none => simp [bufRead, hb]
  | some l => cases hi : l[i]? <;> simp [bufRead, hb, hi]

theorem bufRead_toOption (m : Memory) (b i : Nat) :
    (bufRead m b i).toOption = (bufferSymbols m b).bind (·[i]?) := by
  rw [bufRead_eq_elim]
  cases (bufferSymbols m b).bind (·[i]?) <;> rfl

theorem bufRead_congr {m m' : Memory} {b i : Nat}
    (h : (bufferSymbols m b).bind (·[i]?) = (bufferSymbols m' b).bind (·[i]?)) : bufRead m b i = bufRead m' b i := by
  rw [bufRead_eq_elim, bufRead_eq_elim, h]

theorem bufferSymbols_appendSymbol {b : Nat} (hb : b ≠ 0) (c : Symbol) (s : State) :
    bufferSymbols (appendSymbol c s).mem b = bufferSymbols s.mem b := by
  match b with
  | 0 => exact absurd rfl hb
  | 1 | 2 | 3 | 4 => rfl
  | b + 5 => rfl

theorem getElem?_append_singleton_of_ne {α : Type} {l : List α} {i : Nat} (h : i ≠ l.length) (c : α) :
    (l ++ [c])[i]? = l[i]? := by
  obtain hlt | hgt := Nat.lt_or_gt_of_ne h
  · exact List.getElem?_append_left hlt
  · rw [List.getElem?_eq_none (by simpa using hgt), List.getElem?_eq_none hgt.le]

theorem bufRead_appendSymbol_of_ne {b i : Nat} {s : State} (h : ¬ (b = 0 ∧ i = s.mem.ibuf.length)) (c : Symbol) :
    bufRead (appendSymbol c s).mem b i = bufRead s.mem b i := by
  apply bufRead_congr
  by_cases hb : b = 0
  · subst hb
    exact getElem?_append_singleton_of_ne (fun hi => h ⟨rfl, hi⟩) c
  · rw [bufferSymbols_appendSymbol hb]

/-- ILEN is the only register that a PUSH writes (R131). -/
theorem regRead_appendSymbol {n : Nat} (h : n ≠ 2) (c : Symbol) (s : State) :
    regRead (appendSymbol c s) n = regRead s n := by
  match n with
  | 2 => exact absurd rfl h
  | 0 | 1 | 3 | 4 | 5 | 6 | 7 => rfl
  | n + 8 => rfl

/-- Settles O17: a PUSH that goes on is `appendSymbol`, which only the one element and ILEN show. -/
theorem pushFrame : Obligations.PushFrame := by
  intro s t c h
  obtain rfl := eq_appendSymbol_of_exec_push h
  refine ⟨bufRead_eq_ok.mpr ⟨_, rfl, ?appended⟩, fun b i hne => bufRead_appendSymbol_of_ne hne c,
    fun n hn => regRead_appendSymbol hn c s, rfl, rfl, rfl⟩
  case appended => simp

/-! ## What steps that are no CLR or reset leave -/

theorem ibuf_prefix_of_step {s t : State} (h : step s = .next t) (hclr : ¬ issues s .clr)
    (hreset : ∀ rest, s.stream ≠ .reset :: rest) : s.mem.ibuf <+: t.mem.ibuf := by
  obtain ⟨_, rfl⟩ | ⟨i, hi, _, hexec⟩ | ⟨r, rfl, _⟩ | ⟨rest, hs, _⟩ := step_cases h
  · exact List.prefix_rfl
  · exact ibuf_prefix_of_exec (s := { s with stream := s.stream.tail }) (fun hc => hclr (hc ▸ hi)) hexec
  · exact List.prefix_rfl
  · exact absurd hs (hreset rest)

/-- Settles O18: what stays in IBUF is met by step 1 of every ENC before any engine runs. -/
theorem nonbinarySymbolPoisonsTheInput : Obligations.NonbinarySymbolPoisonsTheInput := by
  refine ⟨fun s t h hclr hreset => ?stays, fun i s hi hbad => ?fails⟩
  case stays =>
    have hprefix := ibuf_prefix_of_step h hclr hreset
    exact ⟨hprefix, fun c hc _ _ => hprefix.subset hc⟩
  case fails =>
    obtain ⟨c, hc, h0, h1⟩ := hbad
    obtain ⟨engine, he⟩ := Option.isSome_iff_exists.mp hi
    have hinvalid : ¬ validInput s := fun hv => (hv.2 c hc).elim h0 h1
    exact ⟨_, exec_enc_of_nonbinary he (List.ne_nil_of_mem hc) hinvalid, rfl⟩

/-- Settles O26: of the commands only PUSH is left, and it writes IBUF alone. -/
theorem resultLivesUntilNextEncOrClr : Obligations.ResultLivesUntilNextEncOrClr := by
  intro s t h hclr henc hreset
  obtain ⟨_, rfl⟩ | ⟨i, hi, _, hexec⟩ | ⟨r, rfl, _⟩ | ⟨rest, hs, _⟩ := step_cases h
  · exact ⟨rfl, rfl, rfl, rfl, rfl⟩
  · obtain ⟨rfl, _⟩ | ⟨c, rfl, rfl⟩ | ⟨engine, he, _⟩ := exec_cases hexec
    · exact absurd hi hclr
    · exact ⟨rfl, rfl, rfl, rfl, rfl⟩
    · exact absurd hi (henc i (Option.isSome_iff_exists.mpr ⟨engine, he⟩))
  · exact ⟨rfl, rfl, rfl, rfl, rfl⟩
  · exact absurd hs (hreset rest)

/-! ## What an ENC leaves and what it takes over -/

/-- Settles O24: commit and error entry leave IBUF, which buffer 0 and ILEN show. -/
theorem encFrame : Obligations.EncFrame := by
  intro i s hi
  obtain ⟨engine, he⟩ := Option.isSome_iff_exists.mp hi
  refine ⟨encodeWith engine s, exec_eq_encodeWith he s, fun k => bufRead_congr ?_, ?_, encodeWith_config engine s,
    encodeWith_stream engine s, encodeWith_replies engine s⟩
  · simp [bufferSymbols]
  · simp [regRead]

/-- Step 1 of ENC takes IBUF over bit by bit: shown as symbols again, the bits are IBUF (R56, R132). -/
theorem map_symbolOfBit_of_inputBits {l : List Symbol} {bits : BitString} (h : inputBits l = .ok bits) :
    bits.map symbolOfBit = l := by
  obtain ⟨_, hl⟩ | ⟨_, _, hl⟩ | ⟨_, hbin, hl⟩ := inputBits_cases l <;> rw [hl] at h <;> cases h
  rw [List.map_map]
  refine (List.map_congr_left fun c hc => ?_).trans (List.map_id l)
  rw [Function.comp_apply, ← bitOfSymbol_eq (hbin c hc), symbolOfBit_bitOfSymbol (hbin c hc), id]

/-- Settles O25: only a commit gives STATUS 0x01, and it writes the bits of step 1 to ORIG. -/
theorem origIsTheInputAsPushed : Obligations.OrigIsTheInputAsPushed := by
  intro i s t hi h hstatus
  obtain ⟨engine, he⟩ := Option.isSome_iff_exists.mp hi
  rw [exec_eq_encodeWith he] at h
  cases h
  obtain ⟨bits, r, hin, _, hw⟩ | ⟨e, _, hw⟩ := encodeWith_cases engine s <;> rw [hw] at hstatus ⊢
  · have horig := map_symbolOfBit_of_inputBits hin
    refine ⟨horig, fun k => ?_⟩
    rw [bufRead_toOption, bufRead_toOption]
    simp [bufferSymbols, horig]
  · exact absurd hstatus (statusOfError_ne_result e)

end Sys2Proof
end

section
/-! PROOFS. Good states: reset is one, every step keeps them, and what their record holds (10_state.md). -/

namespace Sys2Proof

open Machine

/-! ## The engines' answers fit the record -/

/-- What an engine can answer, row by row (R133 to R136). -/
theorem engine_ok_cases {i : Instr} {engine : BitString → Except EceError EncodeResult} {bits : BitString}
    {r : EncodeResult} (he : engineOf i = some engine) (h : engine bits = .ok r) :
    encodeCrc32 bits = .ok r ∨ (∃ w p o, encodeFletcher w p o bits = .ok r) ∨ encodeHamming bits = .ok r := by
  cases i with
  | clr => cases he
  | push _ => cases he
  | encCrc32 =>
    cases he
    exact .inl h
  | encFletcher w p o =>
    cases he
    exact .inr (.inl ⟨w, p, o, h⟩)
  | encHamming =>
    cases he
    exact .inr (.inr h)
  | _ =>
    cases he
    cases h

theorem legalWidth_bounds {w : Nat} (h : legalWidth w = true) : 0 < w ∧ w ≤ 32 := by
  rw [legalWidth_iff] at h
  omega

theorem applyPolicy_snd_lt (p : PadPolicy) (bits : BitString) {w : Nat} (hw : 0 < w) : (applyPolicy p bits w).2 < w := by
  cases p with
  | zp =>
    rw [applyPolicy, padZero_snd bits hw]
    exact Nat.mod_lt _ hw
  | drop => exact hw

/-- Every pad count fits the 5 bits of PADCNT (R16; log 8). -/
theorem padCount_lt_of_engine {i : Instr} {engine : BitString → Except EceError EncodeResult} {bits : BitString}
    {r : EncodeResult} (he : engineOf i = some engine) (h : engine bits = .ok r) : r.padCount < 32 := by
  obtain hr | ⟨w, p, o, hr⟩ | hr := engine_ok_cases he h
  · have hlt : (applyPolicy .zp bits 8).2 < 8 := applyPolicy_snd_lt .zp bits (by decide)
    rw [padCount_of_encodeCrc32 hr]
    exact hlt.trans (by decide)
  · obtain ⟨hw, hk⟩ := padCount_of_encodeFletcher hr
    obtain ⟨hpos, hle⟩ := legalWidth_bounds hw
    rw [hk]
    exact (applyPolicy_snd_lt p bits hpos).trans_le hle
  · rw [padCount_of_encodeHamming hr]
    decide

theorem bits_ne_nil_of_inputBits {l : List Symbol} {bits : BitString} (h : inputBits l = .ok bits) : bits ≠ [] := by
  obtain ⟨_, hl⟩ | ⟨_, _, hl⟩ | ⟨hne, _, hl⟩ := inputBits_cases l <;> rw [hl] at h <;> cases h
  simpa using hne

theorem statusAfter_mem_statusValues (e : Option (ErrorKind × ErrorCause)) : statusAfter e ∈ statusValues := by
  obtain _ | ⟨_ | _, _ | _ | _ | _⟩ := e <;> decide

/-! ## Good states -/

/-- Being good is a matter of the visible state and the capacity. -/
theorem inv_congr {s t : State} (hv : t.visible = s.visible) (hc : t.config = s.config) : Inv t ↔ Inv s := by
  obtain ⟨_, _, _, _, _, _⟩ := s
  obtain ⟨_, _, _, _, _, _⟩ := t
  cases hv
  cases hc
  rfl

theorem inv_of_visible_reset {s : State} (h : s.visible = State.reset.visible) : Inv s := by
  have hmem : s.mem = Memory.empty := congrArg Visible.mem h
  have hpad : s.padcnt = 0 := congrArg Visible.padcnt h
  have hstatus : s.status = 0x00 := congrArg Visible.status h
  refine ⟨hmem ▸ memory_wf_empty _, hstatus ▸ by decide, fun _ => ?empty, fun hone => ?result⟩
  case empty =>
    rw [recordEmpty, hmem, hpad]
    exact ⟨rfl, rfl, rfl, rfl, rfl⟩
  case result => exact absurd (hstatus.symm.trans hone) (by decide)

/-- A PUSH writes IBUF alone, and only when there is room (R131). -/
theorem inv_appendSymbol {s : State} (c : Symbol) (hroom : hasRoom s = true) (h : Inv s) : Inv (appendSymbol c s) := by
  obtain ⟨_, hstatus, hempty, hrecord⟩ := h
  exact ⟨memory_wf_appendSymbol c hroom, hstatus, hempty, hrecord⟩

/-- After a commit the record is the command's own encoding of ORIG (R132 step 3). -/
theorem inv_commitResult {i : Instr} {engine : BitString → Except EceError EncodeResult} {s : State}
    {bits : BitString} {r : EncodeResult} (hi : i.wf = true) (he : engineOf i = some engine)
    (hmem : s.mem.wf s.config.cap = true) (hin : inputBits s.mem.ibuf = .ok bits) (hr : engine bits = .ok r) :
    Inv (commitResult bits r s) := by
  refine ⟨hmem, by rw [commitResult_status]; decide, fun hne => absurd statusResult_eq hne, fun _ => ⟨i, hi, ?_⟩⟩
  refine ⟨engine, he, bits_ne_nil_of_inputBits hin, ?_⟩
  have hk : (BitVec.ofNat 5 r.padCount).toNat = r.padCount := Nat.mod_eq_of_lt (padCount_lt_of_engine he hr)
  rw [commitResult_padcnt, hk]
  exact hr

/-- Error entry empties the record (R158); its STATUS is one of the table of R156. -/
theorem inv_errorEntry {e : EceError} {s : State} (hmem : s.mem.wf s.config.cap = true)
    (hstatus : statusOfError e ∈ statusValues) : Inv (errorEntry e s) :=
  ⟨hmem, hstatus, fun _ => ⟨rfl, rfl, rfl, rfl, rfl⟩, fun hone => absurd hone (statusOfError_ne_result e)⟩

theorem status_encodeWith_mem {i : Instr} {engine : BitString → Except EceError EncodeResult}
    (he : engineOf i = some engine) (s : State) : (encodeWith engine s).status ∈ statusValues := by
  obtain ⟨e, t, _, hexec, hstatus, _⟩ := exec_enc_outcome (Option.isSome_iff_exists.mpr ⟨engine, he⟩) s
  rw [exec_eq_encodeWith he] at hexec
  rw [Host.Outcome.next.inj hexec, hstatus]
  exact statusAfter_mem_statusValues e

theorem inv_exec {i : Instr} {s t : State} (hi : i.wf = true) (h : Inv s) (hexec : exec i s = .next t) : Inv t := by
  obtain ⟨rfl, rfl⟩ | ⟨c, rfl, rfl⟩ | ⟨engine, he, rfl⟩ := exec_cases hexec
  · exact inv_of_visible_reset (clearAll_visible s)
  · cases hroom : hasRoom s with
    | true => exact inv_appendSymbol c hroom h
    | false =>
      rw [exec_push_of_full c hroom] at hexec
      cases hexec
  · have hstatus := status_encodeWith_mem he s
    obtain ⟨bits, r, hin, hr, hw⟩ | ⟨e, _, hw⟩ := encodeWith_cases engine s <;> rw [hw] at hstatus ⊢
    · exact inv_commitResult hi he h.1 hin hr
    · exact inv_errorEntry h.1 hstatus

/-- Settles O57: every buffer is empty and STATUS is 0 at reset. -/
theorem invHoldsAtReset : Obligations.InvHoldsAtReset := inv_of_visible_reset rfl

/-- Settles O58: taking an action does not touch the block, and each thing a step can then do keeps it good. -/
theorem stepKeepsInv : Obligations.StepKeepsInv := by
  intro s t h hstep
  have htaken : Inv { s with stream := s.stream.tail } := (inv_congr rfl rfl).mpr h
  obtain ⟨_, rfl⟩ | ⟨i, _, hi, hexec⟩ | ⟨r, rfl, _⟩ | ⟨rest, _, rfl⟩ := step_cases hstep
  · exact h
  · exact inv_exec hi htaken hexec
  · exact (inv_congr rfl rfl).mpr htaken
  · exact inv_of_visible_reset (assertReset_visible _)

/-! ## The record of a good state -/

theorem trailer_of_encodeCrc32 {bits : BitString} {r : EncodeResult} (h : encodeCrc32 bits = .ok r) :
    r.trailer.length = 32 ∧ r.codeword = r.padded ++ r.trailer := by
  rw [encodeCrc32_of_padZero rfl] at h
  cases h
  exact ⟨render_length 32 _, rfl⟩

theorem trailer_of_encodeFletcher {w : Nat} {p : PadPolicy} {o : TrailerOrder} {bits : BitString} {r : EncodeResult}
    (h : encodeFletcher w p o bits = .ok r) : r.trailer.length = 2 * w ∧ r.codeword = r.padded ++ r.trailer := by
  rw [encodeFletcher_of_applyPolicy (padCount_of_encodeFletcher h).1 rfl] at h
  cases h
  exact ⟨fletcherTrailer_length _ w o, rfl⟩

/-- A policy appends its pad count of zeros, or keeps the first bits and appends none (R71, R72). -/
theorem applyPolicy_shape (p : PadPolicy) (bits : BitString) (w : Nat) :
    (applyPolicy p bits w).1 = bits ++ zeros (applyPolicy p bits w).2 ∨
      ((applyPolicy p bits w).1 <+: bits ∧ (applyPolicy p bits w).2 = 0) := by
  cases p with
  | zp => exact .inl rfl
  | drop => exact .inr ⟨List.take_prefix _ _, rfl⟩

theorem padded_shape {p : PadPolicy} {bits : BitString} {w : Nat} {r : EncodeResult}
    (h : (r.padded, r.padCount) = applyPolicy p bits w) :
    r.padded = bits ++ zeros r.padCount ∨ (r.padded <+: bits ∧ r.padCount = 0) := by
  have hshape := applyPolicy_shape p bits w
  rwa [← h] at hshape

/-- The records of the two checksum engines (R91, R105). -/
theorem checksum_record {bits : BitString} {r : EncodeResult}
    (h : encodeCrc32 bits = .ok r ∨ ∃ w p o, encodeFletcher w p o bits = .ok r) :
    r.trailer.length ∈ [0, 8, 16, 32, 64] ∧ r.codeword = r.padded ++ r.trailer ∧
      (r.padded = bits ++ zeros r.padCount ∨ (r.padded <+: bits ∧ r.padCount = 0)) := by
  obtain h | ⟨w, p, o, h⟩ := h
  · obtain ⟨hlen, hcw⟩ := trailer_of_encodeCrc32 h
    exact ⟨by simp [hlen], hcw, padded_shape (p := .zp) (padded_of_encodeCrc32 h)⟩
  · obtain ⟨hlen, hcw⟩ := trailer_of_encodeFletcher h
    obtain rfl | rfl | rfl | rfl := (legalWidth_iff w).mp (padCount_of_encodeFletcher h).1 <;>
      exact ⟨by simp [hlen], hcw, padded_shape (padded_of_encodeFletcher h)⟩

/-- Settles O59: the engine that made the record, run on ORIG, says how its buffers fit together. -/
theorem goodRecordsAreConsistent : Obligations.GoodRecordsAreConsistent := by
  rintro s ⟨_, _, _, hrecord⟩ hstatus
  obtain ⟨i, _, engine, he, hne, hr⟩ := hrecord hstatus
  refine ⟨List.length_pos_iff.mpr hne, ?_⟩
  obtain hr | hr := or_assoc.mpr (engine_ok_cases he hr)
  · obtain ⟨hlen, hcw, hshape⟩ := checksum_record hr
    refine ⟨hlen, .inl ⟨hcw, ?_, hshape.imp_right (And.imp_right BitVec.eq_of_toNat_eq)⟩⟩
    rw [← List.length_append]
    exact congrArg List.length hcw
  · rw [encodeHamming_nonempty hne, Except.ok.injEq, EncodeResult.mk.injEq] at hr
    obtain ⟨hpadded, htrailer, hcw, hk⟩ := hr
    rw [← htrailer, ← hcw]
    exact ⟨by decide, .inr ⟨hpadded.symm, rfl, BitVec.eq_of_toNat_eq hk.symm, hammingCodeword_length _⟩⟩

end Sys2Proof
end

section
/-! PROOFS. The assembler: what the pseudo-instructions stand for (R62). -/

namespace Sys2Proof

open Machine

/-- `enc.alg n` is the unknown algorithm whose word carries `n` as ALG (R61, R62). -/
theorem unsupOf_spec {n : Nat} (hlo : 3 ≤ n) (hhi : n ≤ 15) :
    isUnsup (unsupOf n) = true ∧ (encode (unsupOf n)).toNat = 0x2000 + 256 * n := by
  by_cases h3 : n = 3
  · subst h3
    decide
  by_cases h8 : n < 8
  · rw [unsupOf, if_neg h3, if_pos h8]
    exact ⟨rfl, toNat_encode_encUnsup4 h8⟩
  · rw [unsupOf, if_neg h3, if_neg h8]
    exact ⟨rfl, toNat_encode_encUnsup8 (by omega)⟩

/-- Settles O60: the expansions are `expandLine`'s own lines, and `unsupOf` picks the row of the ALG code. -/
theorem pseudoInstructionsExpand : Obligations.PseudoInstructionsExpand :=
  ⟨fun _ _ => rfl, fun _ _ => rfl, fun _ => rfl, fun _ => rfl, fun _ _ hlo hhi => ⟨_, rfl, unsupOf_spec hlo hhi⟩⟩

end Sys2Proof
end

section
/-! PROOFS. BitBlocker: the drop policy (R72), rendering (R74) and the blocks of a padded string (R76). -/

namespace Sys2Proof.Machine

/-! ## The drop policy -/

theorem dropPartial_length (bits : BitString) (w : Nat) : (dropPartial bits w).1.length = bits.length / w * w := by
  rw [dropPartial, List.length_take, Nat.min_eq_left (Nat.div_mul_le_self _ _)]

theorem dropPartial_of_short {bits : BitString} {w : Nat} (h : bits.length < w) : dropPartial bits w = ([], 0) := by
  rw [dropPartial, Nat.div_eq_of_lt h, Nat.zero_mul, List.take_zero]

theorem dropPartial_of_whole_blocks {bits : BitString} {w : Nat} (h : bits.length % w = 0) :
    dropPartial bits w = (bits, 0) := by
  rw [dropPartial, Nat.div_mul_cancel (Nat.dvd_of_mod_eq_zero h), List.take_length]

/-! ## Rendering -/

theorem getElem?_render {w v j : Nat} (h : j < w) : (render w v)[j]? = some (v.testBit (w - 1 - j)) := by
  simp [render, h]

/-- The last bit rendered is the least significant one (R74). -/
theorem render_succ (w v : Nat) : render (w + 1) v = render w (v / 2) ++ [v.testBit 0] := by
  rw [render, List.range_succ, List.map_append, List.map_singleton, render]
  congr 1
  · refine List.map_congr_left fun j hj => ?_
    have hexp : w + 1 - 1 - j = w - 1 - j + 1 := by
      have := List.mem_range.mp hj
      omega
    rw [hexp, Nat.testBit_succ]
  · simp

/-- Rendering shows `w` bits, and the block value reads them back (R73, R74). -/
theorem blockValue_render (w v : Nat) : blockValue (render w v) = v % 2 ^ w := by
  induction w generalizing v with
  | zero => rw [pow_zero, Nat.mod_one]; rfl
  | succ w ih =>
    rw [render_succ, blockValue_snoc, ih, Nat.toNat_testBit, pow_succ', Nat.mod_mul, pow_zero, Nat.div_one]
    omega

theorem render_blockValue (s : BitString) : render s.length (blockValue s) = s := by
  induction s using List.reverseRecOn with
  | nil => rfl
  | append_singleton s b ih =>
    have hdiv : (2 * blockValue s + b.toNat) / 2 = blockValue s := by
      have := b.toNat_le
      omega
    have hbit : (2 * blockValue s + b.toNat).testBit 0 = b := by
      cases b <;> simp
    rw [blockValue_snoc, List.length_append, List.length_singleton, render_succ, hdiv, hbit, ih]

/-! ## The blocks of a string -/

@[simp] theorem blocksOf_length (p : BitString) (w : Nat) : (blocksOf p w).length = p.length / w := by
  simp [blocksOf]

theorem seg_length {p : BitString} {a k : Nat} (h : a + k ≤ p.length) : (seg p a k).length = k := by
  rw [seg, List.length_take, List.length_drop]
  omega

/-- Block `j` of a string with `p.length / w` blocks lies within the string (R76). -/
theorem blockSeg_length {p : BitString} {w j : Nat} (h : j < p.length / w) : (seg p (j * w) w).length = w := by
  apply seg_length
  calc j * w + w = (j + 1) * w := (Nat.succ_mul j w).symm
    _ ≤ p.length / w * w := Nat.mul_le_mul_right w h
    _ ≤ p.length := Nat.div_mul_le_self _ _

theorem blocksOf_lt {p : BitString} {w v : Nat} (h : v ∈ blocksOf p w) : v < 2 ^ w := by
  obtain ⟨j, hj, rfl⟩ := List.mem_map.mp h
  have hlt := blockValue_lt (seg p (j * w) w)
  rwa [blockSeg_length (List.mem_range.mp hj)] at hlt

/-- The first `k` segments of length `w`, joined, are the first `k * w` bits. -/
theorem flatten_segs (p : BitString) (w k : Nat) :
    ((List.range k).map fun j => seg p (j * w) w).flatten = p.take (k * w) := by
  induction k with
  | zero => simp
  | succ k ih =>
    rw [List.range_succ, List.map_append, List.flatten_append, ih, Nat.succ_mul, List.take_add]
    simp [seg]

/-- A string that is a whole number of blocks is its blocks, rendered and joined (R76). -/
theorem flatten_render_blocksOf {p : BitString} {w : Nat} (h : p.length % w = 0) :
    ((blocksOf p w).map (render w)).flatten = p := by
  have hsegs : (blocksOf p w).map (render w) = (List.range (p.length / w)).map fun j => seg p (j * w) w := by
    rw [blocksOf, List.map_map]
    refine List.map_congr_left fun j hj => ?_
    have hlen := blockSeg_length (List.mem_range.mp hj)
    calc render w (blockValue (seg p (j * w) w))
        = render (seg p (j * w) w).length (blockValue (seg p (j * w) w)) := by rw [hlen]
      _ = seg p (j * w) w := render_blockValue _
  rw [hsegs, flatten_segs, Nat.div_mul_cancel (Nat.dvd_of_mod_eq_zero h), List.take_length]

theorem padZero_length (bits : BitString) {w : Nat} (hw : 0 < w) :
    (padZero bits w).1.length = (bits.length + w - 1) / w * w := by
  rw [padZero_eq bits hw, List.length_append, zeros_length, add_padCount_eq_ceil_mul _ hw]

/-- How many whole blocks each policy leaves of `m` bits (R71, R72). -/
def policyBlockCount (p : PadPolicy) (m w : Nat) : Nat :=
  match p with
  | .zp => (m + w - 1) / w
  | .drop => m / w

theorem applyPolicy_length (p : PadPolicy) (bits : BitString) {w : Nat} (hw : 0 < w) :
    (applyPolicy p bits w).1.length = policyBlockCount p bits.length w * w := by
  cases p with
  | zp => exact padZero_length bits hw
  | drop => exact dropPartial_length bits w

theorem eq_of_toBlocks {bits : BitString} {w : Nat} {p : PadPolicy} {b : Blocks} (h : toBlocks bits w p = .ok b) :
    legalWidth w = true ∧
      b = ⟨blocksOf (applyPolicy p bits w).1 w, (applyPolicy p bits w).1, (applyPolicy p bits w).2⟩ := by
  cases hw : legalWidth w with
  | true =>
    rw [toBlocks_legal hw] at h
    exact ⟨rfl, (Except.ok.inj h).symm⟩
  | false =>
    rw [toBlocks_illegal hw] at h
    cases h

end Sys2Proof.Machine

namespace Sys2Proof

open Machine

/-- Settles O34: the drop policy takes the floor of the length in whole blocks. -/
theorem dropPolicy : Obligations.DropPolicy := fun bits w _ =>
  ⟨rfl, List.take_prefix _ _, dropPartial_length bits w, dropPartial_of_short,
    fun h => ⟨dropPartial_of_whole_blocks h, padZero_of_whole_blocks h⟩, fun _ _ => padded_of_encodeFletcher⟩

/-- Settles O36, by induction on the last bit, which both directions treat as the least significant one. -/
theorem renderInvertsBlockValue : Obligations.RenderInvertsBlockValue := by
  refine ⟨fun w v => ⟨render_length w v, fun j => getElem?_render⟩, fun w v hv => ?_, render_blockValue⟩
  rw [blockValue_render, Nat.mod_eq_of_lt hv]

/-- Settles O38: each block renders back to its segment, and the segments follow one another without a gap. -/
theorem blocksPartitionThePaddedString : Obligations.BlocksPartitionThePaddedString := by
  intro bits w p b h
  obtain ⟨hlegal, rfl⟩ := eq_of_toBlocks h
  have hw : 0 < w := (legalWidth_bounds hlegal).1
  have hlen := applyPolicy_length p bits hw
  have hcount : (blocksOf (applyPolicy p bits w).1 w).length = policyBlockCount p bits.length w := by
    rw [blocksOf_length, hlen, Nat.mul_div_cancel _ hw]
  have hwhole : (applyPolicy p bits w).1.length % w = 0 := by
    rw [hlen, Nat.mul_mod_left]
  refine ⟨(flatten_render_blocksOf hwhole).symm, hcount ▸ hlen, fun v => blocksOf_lt, ?zeroPad, ?drop⟩
  case zeroPad =>
    rintro rfl
    exact ⟨hcount, List.take_left⟩
  case drop =>
    rintro rfl
    exact ⟨hcount, List.take_prefix _ _⟩

end Sys2Proof
end

section
/-! PROOFS. CRC32Engine: linearity of the table (R86), the bit-serial form (R90) and trailing zeros (R91). -/

namespace Sys2Proof.Machine

/-! ## The shift is linear -/

/-- The step of R85 as one XOR: the shifted word and the polynomial, if the bit shifted out is 1. -/
theorem crcShift_eq_xor (c : U32) : crcShift c = (c >>> 1) ^^^ (if c.getLsbD 0 then crcPoly else 0) := by
  rw [crcShift]
  cases c.getLsbD 0 <;> simp

theorem crcShift_xor (a b : U32) : crcShift (a ^^^ b) = crcShift a ^^^ crcShift b := by
  have hbit : (if (a ^^^ b).getLsbD 0 then crcPoly else 0) =
      (if a.getLsbD 0 then crcPoly else 0) ^^^ (if b.getLsbD 0 then crcPoly else 0) := by
    rw [BitVec.getLsbD_xor]
    cases a.getLsbD 0 <;> cases b.getLsbD 0 <;> simp
  rw [crcShift_eq_xor, crcShift_eq_xor a, crcShift_eq_xor b, hbit, BitVec.ushiftRight_xor_distrib]
  ac_rfl

theorem crcShift8_xor (a b : U32) : crcShift8 (a ^^^ b) = crcShift8 a ^^^ crcShift8 b := by
  have hiter : ∀ k : Nat, crcShift^[k] (a ^^^ b) = crcShift^[k] a ^^^ crcShift^[k] b := by
    intro k
    induction k with
    | zero => rfl
    | succ k ih => simp only [Function.iterate_succ_apply', ih, crcShift_xor]
  exact hiter 8

theorem crcTab_xor (a b : BitVec 8) : crcTab (a ^^^ b) = crcTab a ^^^ crcTab b := by
  rw [crcTab, BitVec.setWidth_xor, crcShift8_xor]
  rfl

/-! ## The bit-serial form -/

/-- While the bits shifted out are 0, the step of R85 is a plain shift. -/
theorem crcShift_iterate_of_lowZeros {k : Nat} {c : U32} (h : ∀ i < k, c.getLsbD i = false) :
    crcShift^[k] c = c >>> k := by
  induction k with
  | zero => rw [BitVec.ushiftRight_zero]; rfl
  | succ k ih =>
    have hlow : (c >>> k).getLsbD 0 = false := by
      rw [BitVec.getLsbD_ushiftRight]
      exact h k k.lt_succ_self
    rw [Function.iterate_succ_apply', ih fun i hi => h i (hi.trans k.lt_succ_self), crcShift_eq_xor, hlow,
      BitVec.shiftRight_add]
    simp

/-- A word is its high bits XOR its low byte. -/
theorem eq_high_xor_low (x : U32) : x = (x >>> 8) <<< 8 ^^^ (x.setWidth 8).setWidth 32 := by
  ext i hi
  by_cases h : i < 8
  · simp [h, BitVec.getLsbD_eq_getElem hi]
  · have hsum : 8 + (i - 8) = i := by omega
    simp [h, hsum, BitVec.getLsbD_eq_getElem hi]

/-- Eight bit-serial steps: the high bits are shifted down, the low byte is looked up (R90). -/
theorem crcShift8_eq_table (x : U32) : crcShift8 x = (x >>> 8) ^^^ crcTab (x.setWidth 8) := by
  have hhigh : crcShift8 ((x >>> 8) <<< 8) = x >>> 8 := by
    rw [crcShift8_eq_iterate, crcShift_iterate_of_lowZeros fun i hi => by simp [hi]]
    ext i hi
    simpa using BitVec.lt_of_getLsbD
  calc crcShift8 x = crcShift8 ((x >>> 8) <<< 8 ^^^ (x.setWidth 8).setWidth 32) := by rw [← eq_high_xor_low]
    _ = (x >>> 8) ^^^ crcTab (x.setWidth 8) := by rw [crcShift8_xor, hhigh]; rfl

theorem crcSerialStep_eq_table (acc : U32) (b : BitVec 8) :
    crcSerialStep acc b = (acc >>> 8) ^^^ crcTab ((acc ^^^ b.setWidth 32).setWidth 8) := by
  have hbyte : (b.setWidth 32) >>> 8 = 0#32 := by
    ext i hi
    simp
  rw [crcSerialStep, crcShift8_eq_table, BitVec.ushiftRight_xor_distrib, hbyte, BitVec.xor_zero]

theorem crcStep_toNat (acc : U32) (b : BitVec 8) : crcStep acc b.toNat = crcSerialStep acc b := by
  rw [crcSerialStep_eq_table, crcStep, BitVec.ofNat_toNat]

/-! ## Trailing zeros -/

theorem zeros_add (j k : Nat) : zeros (j + k) = zeros j ++ zeros k := by
  simp [zeros]

/-- Zeros that stay within the last byte only anticipate the padding (R91). -/
theorem padZero_append_zeros {bits : BitString} {j : Nat} (h : bits.length + j ≤ (bits.length + 7) / 8 * 8) :
    (padZero (bits ++ zeros j) 8).1 = (padZero bits 8).1 ∧ (padZero (bits ++ zeros j) 8).2 + j = (padZero bits 8).2 := by
  have hcount : j + (8 - (bits.length + j) % 8) % 8 = (8 - bits.length % 8) % 8 := by omega
  rw [padZero_eq _ (by decide), padZero_eq _ (by decide), List.length_append, zeros_length]
  refine ⟨?_, by rw [← hcount, Nat.add_comm]⟩
  rw [← hcount, zeros_add, List.append_assoc]

end Sys2Proof.Machine

namespace Sys2Proof

open Machine

/-- Settles O40: each shift is linear, since the bit that selects the polynomial is. -/
theorem crcTableIsLinear : Obligations.CrcTableIsLinear := ⟨crcTab_xor, by decide⟩

/-- Settles O42: by linearity, eight shifts treat the low byte and the rest of the accumulator apart. -/
theorem crcTableFormEqualsSerialForm : Obligations.CrcTableFormEqualsSerialForm := by
  refine ⟨crcSerialStep_eq_table, fun bytes => ?_⟩
  have hstep : (fun acc (b : BitVec 8) => crcStep acc b.toNat) = crcSerialStep := by
    funext acc b
    exact crcStep_toNat acc b
  rw [crc32, List.foldl_map, hstep]
  rfl

/-- Settles O43: the padded strings agree, and CRC-32 sees the padded string alone. -/
theorem crcIgnoresZerosThatFillTheLastByte : Obligations.CrcIgnoresZerosThatFillTheLastByte := by
  intro bits j h
  obtain ⟨hpadded, hcount⟩ := padZero_append_zeros h
  refine ⟨_, _, encodeCrc32_of_padZero Prod.mk.eta.symm, encodeCrc32_of_padZero Prod.mk.eta.symm, hpadded, ?_, ?_,
    hcount⟩ <;> simp only [hpadded]

end Sys2Proof
end

section
/-! PROOFS. FletcherEngine: the sums in closed form (R102), their additions (R103) and the corner cases (R106). -/

namespace Sys2Proof.Machine

/-! ## The sums in closed form -/

/-- The total of `n` blocks weighted `n, n - 1, ..., 1`, which SUM2 accumulates (R102). -/
def weightedTotal (blocks : List Nat) : Nat :=
  ∑ j ∈ Finset.range blocks.length, (blocks.length - j) * blocks.getD j 0

theorem sum_range_getD (blocks : List Nat) : ∑ j ∈ Finset.range blocks.length, blocks.getD j 0 = blocks.sum := by
  rw [Finset.sum_range, ← Fin.sum_univ_getElem]
  simp

/-- One more block raises every weight by one. -/
theorem weightedTotal_snoc (blocks : List Nat) (v : Nat) :
    weightedTotal (blocks ++ [v]) = weightedTotal blocks + (blocks ++ [v]).sum := by
  have hraise : ∀ j ∈ Finset.range blocks.length,
      (blocks.length + 1 - j) * (blocks ++ [v]).getD j 0 =
        (blocks.length - j) * blocks.getD j 0 + blocks.getD j 0 := by
    intro j hj
    have hlt : j < blocks.length := Finset.mem_range.mp hj
    rw [List.getD_append _ _ _ _ hlt, Nat.sub_add_comm hlt.le, Nat.succ_mul]
  rw [weightedTotal, List.length_append, List.length_singleton, Finset.sum_range_succ, Finset.sum_congr rfl hraise,
    Finset.sum_add_distrib, sum_range_getD, Nat.add_sub_cancel_left, Nat.one_mul,
    List.getD_append_right _ _ _ _ le_rfl, Nat.sub_self, List.getD_cons_zero, List.sum_append, List.sum_singleton,
    Nat.add_assoc]
  rfl

theorem fletcherSums_sum1_eq (blocks : List Nat) (w : Nat) :
    (fletcherSums blocks w).sum1 = blocks.sum % fletcherModulus w := by
  induction blocks using List.reverseRecOn with
  | nil => exact (Nat.zero_mod _).symm
  | append_singleton blocks v ih =>
    rw [fletcherSums_snoc_sum1, ih, Nat.mod_add_mod, List.sum_append, List.sum_singleton]

theorem fletcherSums_sum2_eq (blocks : List Nat) (w : Nat) :
    (fletcherSums blocks w).sum2 = weightedTotal blocks % fletcherModulus w := by
  induction blocks using List.reverseRecOn with
  | nil => exact (Nat.zero_mod _).symm
  | append_singleton blocks v ih =>
    rw [fletcherSums_snoc_sum2, ih, fletcherSums_sum1_eq, ← Nat.add_mod, weightedTotal_snoc]

/-! ## Blocks and sums that the trailer does not tell apart -/

/-- The all-ones block adds the modulus, which the reduction takes off again (R101, R106). -/
theorem fletcherStep_allOnes (w : Nat) (r : FletcherSums) :
    fletcherStep (fletcherModulus w) r (2 ^ w - 1) = fletcherStep (fletcherModulus w) r 0 := by
  have hsum : (r.sum1 + (2 ^ w - 1)) % fletcherModulus w = (r.sum1 + 0) % fletcherModulus w := Nat.add_mod_right _ _
  rw [fletcherStep, fletcherStep, hsum]

theorem fletcherSums_allOnes (pre post : List Nat) (w : Nat) :
    fletcherSums (pre ++ [2 ^ w - 1] ++ post) w = fletcherSums (pre ++ [0] ++ post) w := by
  simp [fletcherSums, fletcherStep_allOnes]

theorem fletcherTrailer_congr {bs bs' : List Nat} {w : Nat} (h : fletcherSums bs w = fletcherSums bs' w)
    (o : TrailerOrder) : fletcherTrailer bs w o = fletcherTrailer bs' w o := by
  simp only [fletcherTrailer, h]

theorem fletcherTrailer_of_equal_sums {bs : List Nat} {w : Nat}
    (h : (fletcherSums bs w).sum1 = (fletcherSums bs w).sum2) :
    fletcherTrailer bs w .s1s2 = fletcherTrailer bs w .s2s1 := by
  rw [fletcherTrailer_s1s2, fletcherTrailer_s2s1, h]

/-- One conditional subtraction reduces a number below twice the modulus (R103). -/
theorem mod_eq_sub_of_le_double {x M : Nat} (hM : 0 < M) (h : x ≤ 2 * M - 1) : x % M = if M ≤ x then x - M else x := by
  split
  case isTrue hle => rw [Nat.mod_eq_sub_mod hle, Nat.mod_eq_of_lt (by omega)]
  case isFalse hlt => exact Nat.mod_eq_of_lt (Nat.lt_of_not_le hlt)

end Sys2Proof.Machine

namespace Sys2Proof

open Machine

/-- Settles O46: a block adds its value to the total, and the new total to the weighted one. -/
theorem fletcherSumsClosedForm : Obligations.FletcherSumsClosedForm := fun blocks w _ =>
  ⟨fletcherSums_sum1_eq blocks w, fletcherSums_sum2_eq blocks w⟩

/-- Settles O47: both sums are reduced before each addition. -/
theorem fletcherAdditionsFitOneMoreBit : Obligations.FletcherAdditionsFitOneMoreBit := by
  rintro blocks w v M hw rfl hv
  have hne := widthAllowed_ne_zero hw
  obtain ⟨h1, h2⟩ := fletcherSums_lt_modulus blocks hne
  obtain ⟨h1', -⟩ := fletcherSums_lt_modulus (blocks ++ [v]) hne
  have hM : 0 < 2 ^ w - 1 := fletcherModulus_pos hne
  have hpow : 2 ^ (w + 1) = 2 * 2 ^ w := pow_succ' 2 w
  rw [fletcherModulus] at h1 h2 h1'
  exact ⟨by omega, by omega, fun x => mod_eq_sub_of_le_double hM⟩

/-- Settles O49: no block leaves the seed, whole blocks leave the policies nothing to do, and the trailer is a function of
the two sums. -/
theorem fletcherCornerCases : Obligations.FletcherCornerCases := by
  refine ⟨fun bits w o hw hshort => ?short, fun bits w o hw hwhole => ?whole,
    fun bs w => fletcherTrailer_of_equal_sums, fun pre post w o _ => ?allOnes, by decide⟩
  case short =>
    rw [encodeFletcher_of_applyPolicy ((widthAllowed_iff w).mp hw) (p := .drop) (dropPartial_of_short hshort),
      blocksOf_nil, fletcherTrailer_nil, List.nil_append]
  case allOnes => exact fletcherTrailer_congr (fletcherSums_allOnes pre post w) o
  case whole =>
    have hlegal := (widthAllowed_iff w).mp hw
    rw [encodeFletcher_of_applyPolicy hlegal (p := .zp) (padZero_of_whole_blocks hwhole),
      encodeFletcher_of_applyPolicy hlegal (p := .drop) (dropPartial_of_whole_blocks hwhole)]

end Sys2Proof
end

section
/-! PROOFS. HammingEngine: even parity of the codeword (R118, R119), one flipped position, and the corner cases (R121). -/

namespace Sys2Proof.Machine

/-! ## XOR over a list of positions -/

/-- The XOR of `f` over the positions of a list, as R118 forms it. -/
def xorOver (f : Nat → Bool) (poss : List Nat) : Bool := poss.foldl (fun x pos => x ^^ f pos) false

@[simp] theorem xorOver_nil (f : Nat → Bool) : xorOver f [] = false := rfl

theorem foldl_xor_eq (f : Nat → Bool) (poss : List Nat) (b : Bool) :
    poss.foldl (fun x pos => x ^^ f pos) b = (b ^^ xorOver f poss) := by
  induction poss generalizing b with
  | nil => simp
  | cons pos rest ih =>
    rw [xorOver, List.foldl_cons, List.foldl_cons, ih, ih (false ^^ f pos)]
    simp

@[simp] theorem xorOver_cons (f : Nat → Bool) (pos : Nat) (rest : List Nat) :
    xorOver f (pos :: rest) = (f pos ^^ xorOver f rest) := by
  rw [xorOver, List.foldl_cons, foldl_xor_eq, Bool.false_xor]

theorem xorOver_congr {f g : Nat → Bool} {poss : List Nat} (h : ∀ pos ∈ poss, f pos = g pos) :
    xorOver f poss = xorOver g poss := by
  induction poss with
  | nil => rfl
  | cons pos rest ih =>
    rw [List.forall_mem_cons] at h
    rw [xorOver_cons, xorOver_cons, h.1, ih h.2]

theorem xorOver_of_false {f : Nat → Bool} (h : ∀ pos, f pos = false) (poss : List Nat) : xorOver f poss = false := by
  induction poss with
  | nil => rfl
  | cons pos rest ih => rw [xorOver_cons, h, ih, Bool.false_xor]

/-- One position taken out of the XOR. -/
theorem xorOver_eq_xor_rest (f : Nat → Bool) {p : Nat} {poss : List Nat} (hnd : poss.Nodup) (hp : p ∈ poss) :
    xorOver f poss = (f p ^^ xorOver f (poss.filter (· != p))) := by
  induction poss with
  | nil => cases hp
  | cons q rest ih =>
    obtain ⟨hq, hnd⟩ := List.nodup_cons.mp hnd
    by_cases hqp : q = p
    · subst hqp
      have hrest : rest.filter (· != q) = rest :=
        List.filter_eq_self.mpr fun a ha => bne_iff_ne.mpr fun haq => hq (haq ▸ ha)
      rw [List.filter_cons_of_neg (by simp), hrest, xorOver_cons]
    · have hmem : p ∈ rest := (List.mem_cons.mp hp).resolve_left (Ne.symm hqp)
      rw [List.filter_cons_of_pos (p := (· != p)) (bne_iff_ne.mpr hqp), xorOver_cons, xorOver_cons, ih hnd hmem,
        Bool.xor_left_comm]

/-! ## Writing one position -/

theorem hcwBit_set_same {c : BitString} {p : Nat} (hlo : 1 ≤ p) (hhi : p ≤ c.length) (b : Bool) :
    hcwBit (c.set (p - 1) b) p = b := by
  have hlt : p - 1 < c.length := by omega
  simp [hcwBit, hlt]

theorem hcwBit_set_of_ne {p q : Nat} (hp : 1 ≤ p) (hq : 1 ≤ q) (hne : q ≠ p) (c : BitString) (b : Bool) :
    hcwBit (c.set (p - 1) b) q = hcwBit c q := by
  have hidx : p - 1 ≠ q - 1 := by omega
  simp [hcwBit, List.getElem?_set_ne hidx]

/-! ## The covered positions -/

theorem covers_eq_testBit (pos i : Nat) : (pos &&& 2 ^ i != 0) = pos.testBit i := by
  have hpow : 2 ^ i ≠ 0 := (Nat.two_pow_pos i).ne'
  rw [Nat.and_two_pow]
  cases pos.testBit i <;> simp

theorem mem_covered {n i pos : Nat} : pos ∈ covered n i ↔ (1 ≤ pos ∧ pos ≤ n) ∧ pos.testBit i = true := by
  rw [covered, List.mem_filter, mem_positions, covers_eq_testBit]

theorem covered_nodup (n i : Nat) : (covered n i).Nodup :=
  List.Nodup.filter _ List.nodup_range'

theorem two_pow_mem_covered {n i : Nat} (h : 2 ^ i ≤ n) : 2 ^ i ∈ covered n i :=
  mem_covered.mpr ⟨⟨Nat.one_le_two_pow, h⟩, Nat.testBit_two_pow_self⟩

/-- Index `i` covers one parity position, its own (R118). -/
theorem isPow2_eq_of_mem_covered {n i pos : Nat} (h : pos ∈ covered n i) : isPow2 pos = (pos == 2 ^ i) := by
  obtain ⟨⟨hlo, _⟩, hbit⟩ := mem_covered.mp h
  rw [Bool.eq_iff_iff, beq_iff_eq, isPow2_iff hlo]
  constructor
  · rintro ⟨k, rfl⟩
    rw [Nat.testBit_two_pow, decide_eq_true_iff] at hbit
    rw [hbit]
  · exact fun hpos => ⟨i, hpos⟩

/-- The data positions that index `i` covers (R118). -/
def coveredData (n i : Nat) : List Nat := (covered n i).filter fun pos => !isPow2 pos

/-- The XOR of R118 is the parity bit's own XOR that of the data bits it covers. -/
theorem parityOf_eq_xor_data (c : BitString) {n i : Nat} (h : 2 ^ i ≤ n) :
    parityOf c n i = (hcwBit c (2 ^ i) ^^ xorOver (hcwBit c) (coveredData n i)) := by
  have hdata : coveredData n i = (covered n i).filter (· != 2 ^ i) :=
    List.filter_congr fun pos hpos => by rw [isPow2_eq_of_mem_covered hpos]; rfl
  rw [hdata, ← xorOver_eq_xor_rest _ (covered_nodup n i) (two_pow_mem_covered h)]
  rfl

/-- Changing one position changes the XOR of R118 exactly if the index covers it. -/
theorem parityOf_set {c : BitString} {n p : Nat} (hlo : 1 ≤ p) (hp : p ≤ n) (hlen : n = c.length) (i : Nat) (b : Bool) :
    parityOf (c.set (p - 1) b) n i = (parityOf c n i ^^ (p.testBit i && (hcwBit c p ^^ b))) := by
  have hsame : ∀ q ∈ covered n i, q ≠ p → hcwBit (c.set (p - 1) b) q = hcwBit c q := fun q hq hne =>
    hcwBit_set_of_ne hlo (mem_covered.mp hq).1.1 hne c b
  change xorOver _ _ = (xorOver _ _ ^^ _)
  cases hbit : p.testBit i with
  | true =>
    have hmem : p ∈ covered n i := mem_covered.mpr ⟨⟨hlo, hp⟩, hbit⟩
    have hrest : xorOver (hcwBit (c.set (p - 1) b)) ((covered n i).filter (· != p)) =
        xorOver (hcwBit c) ((covered n i).filter (· != p)) :=
      xorOver_congr fun q hq => hsame q (List.mem_filter.mp hq).1 (bne_iff_ne.mp (List.mem_filter.mp hq).2)
    rw [xorOver_eq_xor_rest _ (covered_nodup n i) hmem, xorOver_eq_xor_rest (hcwBit c) (covered_nodup n i) hmem, hrest,
      hcwBit_set_same hlo (hlen ▸ hp)]
    cases hcwBit c p <;> cases b <;> simp
  | false =>
    have hnot : ∀ q ∈ covered n i, q ≠ p := by
      rintro q hq rfl
      rw [(mem_covered.mp hq).2] at hbit
      cases hbit
    rw [xorOver_congr fun q hq => hsame q hq (hnot q hq)]
    simp

/-! ## The parity bits, one after another -/

theorem parity_succ (h : BitString) (k n : Nat) :
    parity h (k + 1) n = (parity h k n).set (2 ^ k - 1) (parityOf (parity h k n) n k) := by
  rw [parity, List.range_succ, List.foldl_append]
  rfl

/-- The steps for the indices below `k` write the positions `2 ^ 0 .. 2 ^ (k - 1)` only (R118). -/
theorem hcwBit_parity_of_ne {k pos : Nat} (hlo : 1 ≤ pos) (hne : ∀ j < k, pos ≠ 2 ^ j) (h : BitString) (n : Nat) :
    hcwBit (parity h k n) pos = hcwBit h pos := by
  induction k with
  | zero => rfl
  | succ k ih =>
    rw [parity_succ, hcwBit_set_of_ne Nat.one_le_two_pow hlo (hne k k.lt_succ_self),
      ih fun j hj => hne j (hj.trans k.lt_succ_self)]

theorem hcwBit_parity_of_not_isPow2 {pos : Nat} (hlo : 1 ≤ pos) (hp : isPow2 pos = false) (h : BitString) (k n : Nat) :
    hcwBit (parity h k n) pos = hcwBit h pos := by
  refine hcwBit_parity_of_ne hlo (fun j _ hj => ?_) h n
  rw [(isPow2_iff hlo).mpr ⟨j, hj⟩] at hp
  cases hp

theorem xorOver_data_parity (h : BitString) (k n i : Nat) :
    xorOver (hcwBit (parity h k n)) (coveredData n i) = xorOver (hcwBit h) (coveredData n i) := by
  refine xorOver_congr fun pos hpos => ?_
  obtain ⟨hmem, hp⟩ := List.mem_filter.mp hpos
  exact hcwBit_parity_of_not_isPow2 (mem_covered.mp hmem).1.1 (Bool.not_eq_true' _ ▸ hp) h k n

/-- Over a string whose parity positions hold 0, parity bit `i` is the XOR of the data bits it covers (R118). -/
theorem hcwBit_parity_two_pow {h : BitString} {n k i : Nat} (hlen : h.length = n) (hle : ∀ j < k, 2 ^ j ≤ n)
    (hzero : ∀ j < k, hcwBit h (2 ^ j) = false) (hi : i < k) :
    hcwBit (parity h k n) (2 ^ i) = xorOver (hcwBit h) (coveredData n i) := by
  induction k with
  | zero => exact absurd hi i.not_lt_zero
  | succ k ih =>
    have hk := hle k k.lt_succ_self
    rw [parity_succ]
    obtain hlt | rfl := Nat.lt_succ_iff_lt_or_eq.mp hi
    · have hne : 2 ^ i ≠ 2 ^ k := (Nat.pow_lt_pow_right Nat.one_lt_two hlt).ne
      rw [hcwBit_set_of_ne Nat.one_le_two_pow Nat.one_le_two_pow hne]
      exact ih (fun j hj => hle j (hj.trans k.lt_succ_self)) (fun j hj => hzero j (hj.trans k.lt_succ_self)) hlt
    · have hfresh : hcwBit (parity h i n) (2 ^ i) = false := by
        rw [hcwBit_parity_of_ne Nat.one_le_two_pow fun j hj => (Nat.pow_lt_pow_right Nat.one_lt_two hj).ne']
        exact hzero i i.lt_succ_self
      rw [hcwBit_set_same Nat.one_le_two_pow (by rw [parity_length, hlen]; exact hk), parityOf_eq_xor_data _ hk, hfresh,
        Bool.false_xor, xorOver_data_parity]

/-! ## The codeword -/

/-- Each parity bit of the codeword is the XOR of the data bits it covers (R119). -/
theorem hcwBit_codeword_two_pow {d : BitString} {i : Nat} (hi : i < hammingR d.length) :
    hcwBit (hammingCodeword d) (2 ^ i) =
      xorOver (hcwBit (hammingCodeword d)) (coveredData (d.length + hammingR d.length) i) := by
  have hle : ∀ j < hammingR d.length, 2 ^ j ≤ d.length + hammingR d.length := fun j =>
    (two_pow_le_add_hammingR_iff d.length j).mpr
  rw [hammingCodeword, xorOver_data_parity]
  exact hcwBit_parity_two_pow (place_length d _) hle
    (fun j hj => place_parityBit Nat.one_le_two_pow (hle j hj) ((isPow2_iff Nat.one_le_two_pow).mpr ⟨j, rfl⟩)) hi

/-- Every covered set of the codeword has even parity. -/
theorem parityOf_codeword {d : BitString} {i : Nat} (hi : i < hammingR d.length) :
    parityOf (hammingCodeword d) (d.length + hammingR d.length) i = false := by
  rw [parityOf_eq_xor_data _ ((two_pow_le_add_hammingR_iff d.length i).mpr hi), ← hcwBit_codeword_two_pow hi,
    Bool.xor_self]

/-- The parity steps leave the data where placement put it (R117, R119). -/
theorem codeword_dataBits (d : BitString) :
    ((positions (d.length + hammingR d.length)).filter (fun pos => !isPow2 pos)).map (hcwBit (hammingCodeword d)) = d := by
  refine (List.map_congr_left fun pos hpos => ?_).trans (place_dataBits d)
  obtain ⟨hmem, hp⟩ := List.mem_filter.mp hpos
  exact hcwBit_parity_of_not_isPow2 (mem_positions.mp hmem).1 (Bool.not_eq_true' _ ▸ hp) _ _ _

theorem eq_codeword_of_hamming {d c : BitString} (hd : d ≠ []) (h : hamming d = .ok c) : c = hammingCodeword d := by
  rw [hamming_nonempty hd] at h
  exact (Except.ok.inj h).symm

/-! ## Zero data -/

theorem hcwBit_zeros (n pos : Nat) : hcwBit (zeros n) pos = false := by
  rw [hcwBit, zeros, List.getD_eq_getElem?_getD, List.getElem?_getD_replicate_default_eq]

theorem placeFrom_zeros (poss : List Nat) (k : Nat) : placeFrom poss (zeros k) = zeros poss.length := by
  induction poss generalizing k with
  | nil => rfl
  | cons pos rest ih =>
    have htail : (zeros k).tail = zeros (k - 1) := List.tail_replicate
    have hhead : (zeros k).headD false = false := by cases k <;> rfl
    cases hp : isPow2 pos with
    | true => rw [placeFrom_cons_of_isPow2 hp, ih]; rfl
    | false => rw [placeFrom_cons_of_not_isPow2 hp, htail, hhead, ih]; rfl

theorem parity_zeros (k n : Nat) : parity (zeros n) k n = zeros n := by
  induction k with
  | zero => rfl
  | succ k ih =>
    have hbit : parityOf (zeros n) n k = false := xorOver_of_false (hcwBit_zeros n) (covered n k)
    rw [parity_succ, ih, hbit, zeros, List.set_replicate_self]

theorem hammingCodeword_zeros (m : Nat) : hammingCodeword (zeros m) = zeros (m + hammingR m) := by
  rw [hammingCodeword, zeros_length, place, placeFrom_zeros, positions_length, parity_zeros]

/-! ## The values of r -/

/-- More parity bits than fit still fit (R115). -/
theorem fits_of_le {m q k : Nat} (hqk : q ≤ k) (h : m + q + 1 ≤ 2 ^ q) : m + k + 1 ≤ 2 ^ k := by
  induction k, hqk using Nat.le_induction with
  | base => exact h
  | succ k _ ih =>
    rw [pow_succ]
    omega

/-- `r` is found where the inequality of R115 first holds. -/
theorem hammingR_eq_succ {m r : Nat} (hmiss : ¬ m + r + 1 ≤ 2 ^ r) (hfits : m + (r + 1) + 1 ≤ 2 ^ (r + 1)) :
    hammingR m = r + 1 := by
  apply Nat.le_antisymm
  · exact Nat.le_of_not_lt fun hlt => not_fits_of_lt_hammingR hlt hfits
  · exact Nat.lt_of_not_le fun hle => hmiss (fits_of_le hle (hammingR_fits m))

/-- At a perfect length the inequality of R115 is an equation (R121). -/
theorem hammingR_perfect {r m : Nat} (hr : 2 ≤ r) (h : m + r + 1 = 2 ^ r) :
    hammingR m = r ∧ hammingR (m + 1) = r + 1 := by
  obtain ⟨q, rfl⟩ := Nat.exists_eq_add_of_le' (Nat.one_le_of_lt hr)
  have hpow : 2 ^ (q + 1) = 2 * 2 ^ q := pow_succ' 2 q
  have hpow' : 2 ^ (q + 1 + 1) = 2 * 2 ^ (q + 1) := pow_succ' 2 (q + 1)
  have hq : 2 ^ 1 ≤ 2 ^ q := Nat.pow_le_pow_right Nat.two_pos (by omega)
  exact ⟨hammingR_eq_succ (by omega) (by omega), hammingR_eq_succ (by omega) (by omega)⟩

end Sys2Proof.Machine

namespace Sys2Proof

open Machine

/-- Settles O51: the positions split into r powers of two and, by counting, m others. -/
theorem hammingPositionsSplit : Obligations.HammingPositionsSplit := by
  rintro m r - rfl
  exact ⟨parityPositions_eq m, dataPositions_length m, fun pos => isPow2_iff⟩

/-- Settles O53: each index covers one parity position, its own, which holds 0 until the bit is written. -/
theorem hammingCodewordHasEvenParity : Obligations.HammingCodewordHasEvenParity := by
  rintro d c n hd rfl h
  obtain rfl := eq_codeword_of_hamming hd h
  exact ⟨hammingCodeword_length d, codeword_dataBits d, fun i hi => ⟨parityOf_codeword hi, hcwBit_codeword_two_pow hi⟩⟩

/-- Settles O54: all parities are even before the flip, and the flip turns those whose index is a 1 in `p`. -/
theorem hammingSyndromeLocatesOneError : Obligations.HammingSyndromeLocatesOneError := by
  rintro d c n p i hd h rfl hlo hhi hi
  obtain rfl := eq_codeword_of_hamming hd h
  have heven : parityOf (hammingCodeword d) (hammingCodeword d).length i = false := by
    rw [hammingCodeword_length, parityOf_codeword hi]
  rw [flipPosition, parityOf_set hlo hhi rfl, heven]
  simp

/-- Settles O55: zero data leaves nothing to XOR, and every value of r follows from where the inequality first holds. -/
theorem hammingCornerCases : Obligations.HammingCornerCases := by
  refine ⟨by decide, fun m hm => ?zero, fun r m => hammingR_perfect, fun lo hi r h m hlo hhi => ?table⟩
  case zero =>
    have hne : zeros m ≠ [] := List.ne_nil_of_length_pos (by rwa [zeros_length])
    rw [hamming_nonempty hne, hammingCodeword_zeros]
  case table =>
    simp only [List.mem_cons, List.not_mem_nil, or_false, Prod.mk.injEq] at h
    obtain ⟨rfl, rfl, rfl⟩ | ⟨rfl, rfl, rfl⟩ | ⟨rfl, rfl, rfl⟩ | ⟨rfl, rfl, rfl⟩ | ⟨rfl, rfl, rfl⟩ | ⟨rfl, rfl, rfl⟩ |
      ⟨rfl, rfl, rfl⟩ | ⟨rfl, rfl, rfl⟩ := h <;> exact hammingR_eq_succ (by omega) (by omega)

end Sys2Proof
end
